-- ==== Sys2Proof/Word.lean ====
section
/-! DEFINITION. The machine's value types: bytes, instruction words, register numbers. -/

namespace Sys2Proof

/-- A register value, a data-memory cell, an immediate or a data address: unsigned, 0 to 255 (00_scope.md R8). -/
abbrev Byte := BitVec 8

/-- An instruction word (00_scope.md R6, 30_encoding.md R70). -/
abbrev Word := BitVec 16

/-- An instruction index held in the program counter: 8 bits suffice (10_state.md R27). -/
abbrev Index := BitVec 8

/-- A register number: r0 to r13 are 0 to 13, `zero` is 14, `status` is 15 (10_state.md R21). -/
abbrev Reg := Fin 16

/-- Register `zero`, index 14 (10_state.md R23). -/
abbrev Reg.zero : Reg := 14

/-- Register `status`, index 15 (10_state.md R24). -/
abbrev Reg.status : Reg := 15

end Sys2Proof
end

