-- ==== Sys2Proof/Config.lean ====
section
/-! DEFINITION. The implementation parameters (00_scope.md R6) and what the spec leaves to the implementation. -/

namespace Sys2Proof

/-- The longest instruction memory an instance may have: `0 <= N <= 255` (10_state.md R30). -/
def Config.maxWords : Nat := 255

/-- The entry point, the only fixed address of the block (20_memory.md R54; 10_state.md R34). -/
def Config.entryPoint : Index := 0

/-- What a data-memory cell that nothing has written since reset reads as: reset zeroes every cell
(10_state.md R34; 45_memory_access.md R200). -/
def Config.resetByte : Byte := 0

/-- The error kinds of the assembler, in the order of the table of 30_encoding.md R97. They stand in this file because
the text of each message is a parameter of the implementation. -/
inductive AsmErrorKind where
  /-- LexError: a character no token begins with (R85). -/
  | unknownCharacter
  /-- LexError: a block comment with no closing mark (R82). -/
  | unterminatedComment
  /-- ParseError: no mnemonic where one is expected (R86, R88). -/
  | missingInstruction
  /-- ParseError: no identifier where a register is expected (R91). -/
  | missingRegister
  /-- ParseError: neither a number nor a label where an immediate is expected (R92). -/
  | missingNumberOrLabel
  /-- ParseError listed by R97 with a condition the source does not settle (91_not_in_source.md N16): never raised. -/
  | missingColon
  /-- ParseError: a mnemonic that is not in the instruction table (R88). -/
  | unknownMnemonic
  /-- ParseError: a name that is none of the 16 registers (R91). -/
  | unknownRegister
  /-- ParseError: `zero` or `status` as a destination (R91). -/
  | notWritable
  /-- ParseError: a literal above 255 (R92). -/
  | immediateTooLarge
  /-- ParseError: a label defined a second time (R87). -/
  | duplicateLabel
  /-- ParseError: a label that is referenced and nowhere defined (R94). -/
  | undefinedLabel
  /-- ParseError: 256 or more instructions; the message names the count (R95). -/
  | programTooLong (count : Nat)
deriving DecidableEq, Repr

/-- The text of an assembler error's message, which the spec leaves to the implementation (92_eei_decisions.md D19,
parameter `asm_error_report`). UNVERIFIED free value, safe: it has no body, so nothing can be proved of a text.
Assumption log entry 15. -/
opaque Config.asmErrorText : AsmErrorKind → List Char

end Sys2Proof
end

