-- ==== Sys2Proof/Syntax.lean ====
section
/-! DEFINITION. The instructions: one constructor per row of spec/opcode_table.json. -/

namespace Sys2Proof

/-- The sixteen instructions (00_scope.md R2). Operands are those of 30_encoding.md R73, in the order of the word's fields:
`rs1` and `rs2` are source registers, `rd` is the destination register, `imm` is IST's immediate. Unused bits of a word
are no part of an instruction (R77). -/
inductive Instr where
  /-- No operation (41_system.md R140). -/
  | nop
  /-- Stop (41_system.md R141). -/
  | halt
  /-- Unsigned add (42_alu.md R150). -/
  | add (rs1 rs2 rd : Reg)
  /-- Unsigned subtract (42_alu.md R151). -/
  | sub (rs1 rs2 rd : Reg)
  /-- Bitwise and (42_alu.md R152). -/
  | and (rs1 rs2 rd : Reg)
  /-- Bitwise inclusive or (42_alu.md R153). -/
  | or (rs1 rs2 rd : Reg)
  /-- Bitwise exclusive or (42_alu.md R154). -/
  | xor (rs1 rs2 rd : Reg)
  /-- Complement at full precision (42_alu.md R155). -/
  | not (rs1 rd : Reg)
  /-- Copy a register (43_move.md R180). -/
  | set (rs1 rd : Reg)
  /-- Set a register to an immediate (43_move.md R181). -/
  | ist (rd : Reg) (imm : Byte)
  /-- Jump to the index in a register (44_control.md R190). -/
  | jmp (rs1 : Reg)
  /-- Jump to the index in `rs1` if `rs2` is not zero (44_control.md R191). -/
  | jip (rs1 rs2 : Reg)
  /-- Load the byte at the address in `rs1` (45_memory_access.md R200). -/
  | lod (rs1 rd : Reg)
  /-- Store `rs2` at the address in `rs1` (45_memory_access.md R201). -/
  | sto (rs1 rs2 : Reg)
  /-- Shift left at full precision (42_alu.md R156). -/
  | shl (rs1 rs2 rd : Reg)
  /-- Logical shift right (42_alu.md R157). -/
  | shr (rs1 rs2 rd : Reg)
deriving DecidableEq, Repr

end Sys2Proof
end

