-- ==== Sys2Proof/WellFormed.lean ====
section
/-! DEFINITION. What the toolchain guarantees of the instructions and programs it emits. The hardware runs every
`Instr`: a well-formed one is one the assembler can emit (30_encoding.md R91), the others come from hand-built words. -/

namespace Sys2Proof

/-- A register the assembler accepts as a destination: any but `zero` and `status` (30_encoding.md R91). -/
def Reg.writable (r : Reg) : Bool := r != Reg.zero && r != Reg.status

/-- The destination register of an instruction, where it has one (30_encoding.md R73). -/
def Instr.dest : Instr → Option Reg
  | .nop => none
  | .halt => none
  | .add _ _ rd => some rd
  | .sub _ _ rd => some rd
  | .and _ _ rd => some rd
  | .or _ _ rd => some rd
  | .xor _ _ rd => some rd
  | .not _ rd => some rd
  | .set _ rd => some rd
  | .ist rd _ => some rd
  | .jmp _ => none
  | .jip _ _ => none
  | .lod _ rd => some rd
  | .sto _ _ => none
  | .shl _ _ rd => some rd
  | .shr _ _ rd => some rd

/-- The same instruction with another destination register (an instruction without one is unchanged). -/
def Instr.withDest (i : Instr) (rd : Reg) : Instr :=
  match i with
  | .nop => .nop
  | .halt => .halt
  | .add rs1 rs2 _ => .add rs1 rs2 rd
  | .sub rs1 rs2 _ => .sub rs1 rs2 rd
  | .and rs1 rs2 _ => .and rs1 rs2 rd
  | .or rs1 rs2 _ => .or rs1 rs2 rd
  | .xor rs1 rs2 _ => .xor rs1 rs2 rd
  | .not rs1 _ => .not rs1 rd
  | .set rs1 _ => .set rs1 rd
  | .ist _ imm => .ist rd imm
  | .jmp rs1 => .jmp rs1
  | .jip rs1 rs2 => .jip rs1 rs2
  | .lod rs1 _ => .lod rs1 rd
  | .sto rs1 rs2 => .sto rs1 rs2
  | .shl rs1 rs2 _ => .shl rs1 rs2 rd
  | .shr rs1 rs2 _ => .shr rs1 rs2 rd

/-- An instruction the assembler can emit: its destination, if it has one, is writable (30_encoding.md R91). -/
def Instr.wellFormed (i : Instr) : Bool :=
  match i.dest with
  | none => true
  | some rd => rd.writable

/-- An array an instance may be constructed from: at most 255 words (10_state.md R30, 30_encoding.md R95). -/
def programFits (words : List Word) : Bool := words.length ≤ Config.maxWords

end Sys2Proof
end

