-- ==== Sys2Proof/Decode.lean ====
section
/-! DEFINITION. The instruction word: its fields, the decoder (30_encoding.md Part A) and the encoder. -/

namespace Sys2Proof

/-- The sixteen opcodes, by mnemonic (30_encoding.md R75). -/
inductive Opcode where
  | nop | halt | add | sub | and | or | xor | not | set | ist | jmp | jip | lod | sto | shl | shr
deriving DecidableEq, Repr

/-- The six formats (30_encoding.md R72): which operands an instruction has and which fields hold them. -/
inductive Format where
  /-- No operands. -/
  | n
  /-- Source, source, destination. -/
  | rrw
  /-- Source, destination. -/
  | rw
  /-- Source, source. -/
  | rr
  /-- Source. -/
  | r
  /-- Destination and immediate. -/
  | wi
deriving DecidableEq, Repr

/-- The opcodes in the order of their numbers, 0 to 15 (00_scope.md R2; 30_encoding.md R75). -/
def opcodeTable : Vector Opcode 16 :=
  #v[.nop, .halt, .add, .sub, .and, .or, .xor, .not, .set, .ist, .jmp, .jip, .lod, .sto, .shl, .shr]

/-- The opcode an opcode number stands for: all 16 values are assigned (30_encoding.md R76). -/
def Opcode.ofNumber (n : Fin 16) : Opcode := opcodeTable[n]

/-- The number of an opcode (00_scope.md R2; 30_encoding.md R75). -/
def Opcode.number : Opcode → Fin 16
  | .nop => 0
  | .halt => 1
  | .add => 2
  | .sub => 3
  | .and => 4
  | .or => 5
  | .xor => 6
  | .not => 7
  | .set => 8
  | .ist => 9
  | .jmp => 10
  | .jip => 11
  | .lod => 12
  | .sto => 13
  | .shl => 14
  | .shr => 15

/-- The format of each opcode (30_encoding.md R72). -/
def Opcode.format : Opcode → Format
  | .nop => .n
  | .halt => .n
  | .add => .rrw
  | .sub => .rrw
  | .and => .rrw
  | .or => .rrw
  | .xor => .rrw
  | .not => .rw
  | .set => .rw
  | .ist => .wi
  | .jmp => .r
  | .jip => .rr
  | .lod => .rw
  | .sto => .rr
  | .shl => .rrw
  | .shr => .rrw

/-- The bits of a word that mean something in a format; the decoder ignores the others (30_encoding.md R72, R77). -/
def Format.usedBits : Format → Word
  | .n => 0xF000#16
  | .rrw => 0xFFFF#16
  | .rw => 0xFFF0#16
  | .rr => 0xFFF0#16
  | .r => 0xFF00#16
  | .wi => 0xFFFF#16

/-- The opcode of an instruction. -/
def Instr.opcode : Instr → Opcode
  | .nop => .nop
  | .halt => .halt
  | .add _ _ _ => .add
  | .sub _ _ _ => .sub
  | .and _ _ _ => .and
  | .or _ _ _ => .or
  | .xor _ _ _ => .xor
  | .not _ _ => .not
  | .set _ _ => .set
  | .ist _ _ => .ist
  | .jmp _ => .jmp
  | .jip _ _ => .jip
  | .lod _ _ => .lod
  | .sto _ _ => .sto
  | .shl _ _ _ => .shl
  | .shr _ _ _ => .shr

/-- The 4-bit field of a word whose lowest bit is bit `lo` (30_encoding.md R71). -/
def nibble (w : Word) (lo : Nat) : Fin 16 :=
  ⟨(w.extractLsb' lo 4).toNat, (w.extractLsb' lo 4).isLt⟩

/-- Field `op`, w[15:12] (30_encoding.md R71). -/
def opField (w : Word) : Fin 16 := nibble w 12

/-- Field `F1`, w[11:8] (30_encoding.md R71). -/
def field1 (w : Word) : Reg := nibble w 8

/-- Field `F2`, w[7:4] (30_encoding.md R71). -/
def field2 (w : Word) : Reg := nibble w 4

/-- Field `F3`, w[3:0] (30_encoding.md R71). -/
def field3 (w : Word) : Reg := nibble w 0

/-- Field `IMM`, w[7:0] (30_encoding.md R71, R74). -/
def immField (w : Word) : Byte := w.extractLsb' 0 8

/-- The opcode of a word, by bits [15:12] alone (30_encoding.md R76). -/
def opcodeOf (w : Word) : Opcode := Opcode.ofNumber (opField w)

/-- The decoder: total, every word is exactly one instruction (30_encoding.md R71 to R77), whatever its destination
field (R78). It rejects nothing, because the spec gives every word an instruction. -/
def decode (w : Word) : Instr :=
  match opcodeOf w with
  | .nop => .nop
  | .halt => .halt
  | .add => .add (field1 w) (field2 w) (field3 w)
  | .sub => .sub (field1 w) (field2 w) (field3 w)
  | .and => .and (field1 w) (field2 w) (field3 w)
  | .or => .or (field1 w) (field2 w) (field3 w)
  | .xor => .xor (field1 w) (field2 w) (field3 w)
  | .not => .not (field1 w) (field2 w)
  | .set => .set (field1 w) (field2 w)
  | .ist => .ist (field1 w) (immField w)
  | .jmp => .jmp (field1 w)
  | .jip => .jip (field1 w) (field2 w)
  | .lod => .lod (field1 w) (field2 w)
  | .sto => .sto (field1 w) (field2 w)
  | .shl => .shl (field1 w) (field2 w) (field3 w)
  | .shr => .shr (field1 w) (field2 w) (field3 w)

/-- The four bits of a register number, or of an opcode number. -/
def bits4 (r : Fin 16) : BitVec 4 := BitVec.ofNat 4 r.val

/-- A word of four 4-bit fields, `op` highest (00_scope.md R7: `op.a.b.c`). -/
def packFields (op : Opcode) (f1 f2 f3 : BitVec 4) : Word := bits4 op.number ++ f1 ++ f2 ++ f3

/-- A word of an opcode, `F1` and the 8-bit immediate (30_encoding.md R71, format WI of R72). -/
def packImm (op : Opcode) (f1 : BitVec 4) (imm : Byte) : Word := bits4 op.number ++ f1 ++ imm

/-- The canonical word of an instruction: the opcode and the operands in their fields, every unused bit 0
(30_encoding.md R72, R75, R93). -/
def encode : Instr → Word
  | .nop => packFields .nop 0#4 0#4 0#4
  | .halt => packFields .halt 0#4 0#4 0#4
  | .add rs1 rs2 rd => packFields .add (bits4 rs1) (bits4 rs2) (bits4 rd)
  | .sub rs1 rs2 rd => packFields .sub (bits4 rs1) (bits4 rs2) (bits4 rd)
  | .and rs1 rs2 rd => packFields .and (bits4 rs1) (bits4 rs2) (bits4 rd)
  | .or rs1 rs2 rd => packFields .or (bits4 rs1) (bits4 rs2) (bits4 rd)
  | .xor rs1 rs2 rd => packFields .xor (bits4 rs1) (bits4 rs2) (bits4 rd)
  | .not rs1 rd => packFields .not (bits4 rs1) (bits4 rd) 0#4
  | .set rs1 rd => packFields .set (bits4 rs1) (bits4 rd) 0#4
  | .ist rd imm => packImm .ist (bits4 rd) imm
  | .jmp rs1 => packFields .jmp (bits4 rs1) 0#4 0#4
  | .jip rs1 rs2 => packFields .jip (bits4 rs1) (bits4 rs2) 0#4
  | .lod rs1 rd => packFields .lod (bits4 rs1) (bits4 rd) 0#4
  | .sto rs1 rs2 => packFields .sto (bits4 rs1) (bits4 rs2) 0#4
  | .shl rs1 rs2 rd => packFields .shl (bits4 rs1) (bits4 rs2) (bits4 rd)
  | .shr rs1 rs2 rd => packFields .shr (bits4 rs1) (bits4 rs2) (bits4 rd)

/-- The instruction of a word given as a number of `nbits` bits in the numbering of spec/opcode_table.json; every bit
from `nbits` up is 0. A word has 16 bits (30_encoding.md R70): a longer one is no instruction. -/
def decodeTableWord (nbits w : Nat) : Option Instr :=
  if nbits ≤ 16 then some (decode (BitVec.ofNat 16 (w % 2 ^ nbits))) else none

end Sys2Proof
end

