-- ==== Sys2Proof/Machine/State.lean ====
section
/-! DEFINITION. The architectural state of one machine, the ways a step can stop, and the state after reset. -/

namespace Sys2Proof.Machine

/-- The data memory as (address, byte) pairs. Canonical form (`Memory.wf`, Machine/Ops.lean): addresses strictly rising
and below 256, no listed byte equal to what an unlisted address reads as. -/
abbrev Memory := List Host.Cell

/-- The complete architectural state: "Nothing else is state" (10_state.md R20). -/
structure State where
  /-- The instruction memory `IMem`, the word array the machine is constructed from (10_state.md R30). -/
  imem : List Word
  /-- The data memory `mem`, 256 cells of 8 bits (10_state.md R29). -/
  mem : Memory
  /-- The register file `x` (10_state.md R21). -/
  regs : Vector Byte 16
  /-- The program counter: the index of the instruction being executed (10_state.md R26, R27). -/
  pc : Index
  /-- The halt bit (10_state.md R28). -/
  terminated : Bool
deriving DecidableEq, Repr

/-- Why a step stops with a fault. -/
inductive Fault where
  /-- ExecutionError with cause OutOfBounds (60_exceptions.md R210): raised by `step` on a machine that is not terminated
  and whose pc is at or past the end of the instruction memory. Safe: it is the spec's own error and changes no state. -/
  | outOfBounds
deriving DecidableEq, Repr

/-- Why the model gives no meaning. -/
inductive Refusal where
  /-- Raised by an arm of `exec` for an instruction with no meaning yet. Safe. No arm raises it. -/
  | notModelled (mnemonic : String)
  /-- Raised by `State.construct` and by `step` on an instruction memory of 256 or more words, which the spec has a model
  refuse (10_state.md R30; 93_implementation_defined.md I4). Safe: no claim is made of such a machine. -/
  | imemTooLong
deriving DecidableEq, Repr

/-- The state after reset (10_state.md R34), of a machine constructed from the empty array: the spec gives IMem no reset
value of its own. DESIGN CHOICE, assumption log entry 1. -/
def State.reset : State where
  imem := []
  mem := []
  regs := Vector.replicate 16 0
  pc := Config.entryPoint
  terminated := false

end Sys2Proof.Machine
end

