-- ==== Sys2Proof/Machine/Flags.lean ====
section
/-! DEFINITION. Truncation to 8 bits and the flag classifier (40_step_and_flags.md section 2). -/

namespace Sys2Proof.Machine

/-- The byte stored for a raw result: the Euclidean remainder modulo 256 (40_step_and_flags.md R124). -/
def trunc8 (raw : Int) : Byte := BitVec.ofNat 8 (raw % 256).toNat

/-- Z: the raw result is 0 (40_step_and_flags.md R125). -/
def flagZ (raw : Int) : Bool := raw = 0

/-- N: the raw result is negative (40_step_and_flags.md R125). -/
def flagN (raw : Int) : Bool := raw < 0

/-- V: the raw result does not fit 8 unsigned bits (40_step_and_flags.md R125). -/
def flagV (raw : Int) : Bool := raw < 0 || 256 ≤ raw

/-- One flag as a byte. -/
def flagByte (b : Bool) : Byte := if b then 1 else 0

/-- The status byte `(V << 2) | (N << 1) | Z` of a raw result, computed before truncation (40_step_and_flags.md R125). -/
def classify (raw : Int) : Byte :=
  (flagByte (flagV raw) <<< 2) ||| (flagByte (flagN raw) <<< 1) ||| flagByte (flagZ raw)

/-- The status byte of the instructions that classify nothing: NOP, JMP, JIP, STO (40_step_and_flags.md R126). -/
def clearedFlags : Byte := 0

end Sys2Proof.Machine
end

