-- ==== Sys2Proof/Machine/Ops.lean ====
section
/-! DEFINITION. The named operations over memory, registers, fetch, the end of a step, the execution error and reset. -/

namespace Sys2Proof.Machine

/-- The byte at an address; an unlisted address reads as after reset (10_state.md R34). -/
def Memory.read : Memory → Nat → Byte
  | [], _ => Config.resetByte
  | (k, v) :: rest, a => if k = a then v else Memory.read rest a

/-- The memory with the cell at an address as after reset. -/
def Memory.erase (m : Memory) (a : Nat) : Memory := m.filter fun cell => cell.1 ≠ a

/-- The memory with one cell listed before the first higher address. -/
def Memory.insert : Memory → Nat → Byte → Memory
  | [], a, v => [(a, v)]
  | (k, x) :: rest, a, v => if a < k then (a, v) :: (k, x) :: rest else (k, x) :: Memory.insert rest a v

/-- Change one cell and no other (20_memory.md R53), keeping the canonical form: a byte that an unlisted address reads
as is not listed. -/
def Memory.write (m : Memory) (a : Nat) (v : Byte) : Memory :=
  if v = Config.resetByte then m.erase a else (m.erase a).insert a v

/-- Every listed address is at least `lo` and below 256, addresses rise strictly, and no listed byte is the reset byte. -/
def Memory.risingFrom : Nat → Memory → Bool
  | _, [] => true
  | lo, (k, v) :: rest =>
    decide (lo ≤ k) && decide (k < 256) && decide (v ≠ Config.resetByte) && Memory.risingFrom (k + 1) rest

/-- The canonical form of a data memory of 256 cells (10_state.md R29). -/
def Memory.wf (m : Memory) : Bool := Memory.risingFrom 0 m

/-- `MemRead(addr, 1)` (00_scope.md R9): every 8-bit address exists (20_memory.md R52). -/
def State.readMem (s : State) (a : Byte) : Byte := s.mem.read a.toNat

/-- `MemWrite(addr, 1, v)` (00_scope.md R9). -/
def State.writeMem (s : State) (a v : Byte) : State := { s with mem := s.mem.write a.toNat v }

/-- `x[r]` (00_scope.md R9). Register `zero` is hard-wired: it "always reads 0" (10_state.md R23). DEDUCED, log entry 2. -/
def State.readReg (s : State) (r : Reg) : Byte :=
  if r = Reg.zero then 0 else s.regs[r]

/-- `x[r] <- v` (00_scope.md R9). A write to `zero` or `status` is undone at the end of the same step
(`State.endStep`; 40_step_and_flags.md R131). -/
def State.writeReg (s : State) (r : Reg) (v : Byte) : State := { s with regs := s.regs.set r v }

/-- Set the program counter. -/
def State.setPc (s : State) (target : Index) : State := { s with pc := target }

/-- `pc + 1`, where an instruction that does not jump leaves the program counter (40_step_and_flags.md R129). -/
def State.nextPc (s : State) : Index := s.pc + 1

/-- The writes every executed instruction but HALT ends with, in their order: `zero` is forced to 0, `status` takes the
instruction's flags, the program counter takes its next value (40_step_and_flags.md R128 to R130). -/
def State.endStep (s : State) (flags : Byte) (target : Index) : State :=
  ((s.writeReg Reg.zero 0).writeReg Reg.status flags).setPc target

/-- The end of an instruction that writes the truncation of a raw result to a register and classifies it
(40_step_and_flags.md R126, R127). -/
def State.retireResult (s : State) (rd : Reg) (raw : Int) : State :=
  (s.writeReg rd (trunc8 raw)).endStep (classify raw) s.nextPc

/-- The word at the program counter, or nothing when the program counter is out of bounds (40_step_and_flags.md R122,
R123). -/
def State.fetch (s : State) : Option Word := s.imem[s.pc.toNat]?

/-- Taking the one exception of the block (60_exceptions.md R210, R215): nothing is saved, no mode and no mask changes,
control goes nowhere; the host receives the cause and the state stays what it was. -/
def raiseExecutionError (cause : Fault) : Host.Outcome State Fault Refusal := .fault cause

/-- `reset()`, the only way on after an ExecutionError or a HALT (60_exceptions.md R216): every piece of state takes its
reset value and the instruction memory is kept (70_reset_and_hazards.md R230; 10_state.md R34). -/
def State.resetKeepingImem (s : State) : State := { State.reset with imem := s.imem }

/-- The state with a word where the next step fetches: at the program counter, the words before it that are missing
filled with NOP, the machine not terminated, no more words than an instruction memory holds. No instruction memory
reaches index 255 (10_state.md R30): a program counter there is moved to the entry point. Log entry 5. -/
def State.placeAtPc (s : State) (w : Word) : State :=
  let idx := if s.pc.toNat < Config.maxWords then s.pc else Config.entryPoint
  let kept := s.imem.take Config.maxWords
  { s with
    imem := (kept ++ List.replicate (idx.toNat + 1 - kept.length) 0#16).set idx.toNat w
    pc := idx
    terminated := false }

end Sys2Proof.Machine
end

