-- ==== Sys2Proof/Machine/Operands.lean ====
section
/-! DEFINITION. The operand forms (30_encoding.md R73, R74): what an instruction's operand stands for. Every operand is a
register read at the start of the step, IST's immediate, or the memory cell LOD addresses; there is no other form. -/

namespace Sys2Proof.Machine

/-- A source register's value as a number, 0 to 255 (00_scope.md R8: unsigned, no signed reading anywhere). -/
def State.source (s : State) (r : Reg) : Nat := (s.readReg r).toNat

/-- The immediate as a number: unsigned, not extended, scaled or shifted (30_encoding.md R74). -/
def immediate (imm : Byte) : Nat := imm.toNat

/-- The data address in a register: the whole 8-bit value, no offset (45_memory_access.md R202). -/
def State.address (s : State) (r : Reg) : Byte := s.readReg r

/-- The memory operand of LOD: the byte at the address in a register, as a number (45_memory_access.md R200). -/
def State.loaded (s : State) (r : Reg) : Nat := (s.readMem (s.address r)).toNat

/-- The jump target in a register: the whole 8-bit value, no range check (40_step_and_flags.md R129). -/
def State.target (s : State) (r : Reg) : Index := s.readReg r

end Sys2Proof.Machine
end

