-- ==== Sys2Proof/Machine/Alu.lean ====
section
/-! DEFINITION. The ALU (42_alu.md): the raw result of each operation as an exact integer, and the instructions. -/

namespace Sys2Proof.Machine

/-- `a + b` (42_alu.md R150). -/
def rawAdd (a b : Nat) : Int := (a : Int) + b

/-- `a - b`, negative where `a < b` (42_alu.md R151). -/
def rawSub (a b : Nat) : Int := (a : Int) - b

/-- `a & b` (42_alu.md R152). -/
def rawAnd (a b : Nat) : Int := ((a &&& b : Nat) : Int)

/-- `a | b` (42_alu.md R153). -/
def rawOr (a b : Nat) : Int := ((a ||| b : Nat) : Int)

/-- `a ^ b` (42_alu.md R154). -/
def rawXor (a b : Nat) : Int := ((a ^^^ b : Nat) : Int)

/-- `~a = -a - 1`, the complement at full precision (42_alu.md R155). -/
def rawNot (a : Nat) : Int := -(a : Int) - 1

/-- `a * 2^b`, the whole of `b` and no width limit (42_alu.md R156). -/
def rawShl (a b : Nat) : Int := ((a * 2 ^ b : Nat) : Int)

/-- `floor(a / 2^b)`, the whole of `b` (42_alu.md R157). -/
def rawShr (a b : Nat) : Int := ((a / 2 ^ b : Nat) : Int)

/-- ADD (42_alu.md R150). -/
def execAdd (rs1 rs2 rd : Reg) (s : State) : Host.Outcome State Fault Refusal :=
  .next (s.retireResult rd (rawAdd (s.source rs1) (s.source rs2)))

/-- SUB (42_alu.md R151). -/
def execSub (rs1 rs2 rd : Reg) (s : State) : Host.Outcome State Fault Refusal :=
  .next (s.retireResult rd (rawSub (s.source rs1) (s.source rs2)))

/-- AND (42_alu.md R152). -/
def execAnd (rs1 rs2 rd : Reg) (s : State) : Host.Outcome State Fault Refusal :=
  .next (s.retireResult rd (rawAnd (s.source rs1) (s.source rs2)))

/-- OR (42_alu.md R153). -/
def execOr (rs1 rs2 rd : Reg) (s : State) : Host.Outcome State Fault Refusal :=
  .next (s.retireResult rd (rawOr (s.source rs1) (s.source rs2)))

/-- XOR (42_alu.md R154). -/
def execXor (rs1 rs2 rd : Reg) (s : State) : Host.Outcome State Fault Refusal :=
  .next (s.retireResult rd (rawXor (s.source rs1) (s.source rs2)))

/-- NOT (42_alu.md R155). -/
def execNot (rs1 rd : Reg) (s : State) : Host.Outcome State Fault Refusal :=
  .next (s.retireResult rd (rawNot (s.source rs1)))

/-- SHL (42_alu.md R156). -/
def execShl (rs1 rs2 rd : Reg) (s : State) : Host.Outcome State Fault Refusal :=
  .next (s.retireResult rd (rawShl (s.source rs1) (s.source rs2)))

/-- SHR (42_alu.md R157). -/
def execShr (rs1 rs2 rd : Reg) (s : State) : Host.Outcome State Fault Refusal :=
  .next (s.retireResult rd (rawShr (s.source rs1) (s.source rs2)))

end Sys2Proof.Machine
end

