-- ==== Sys2Proof/Machine/Control.lean ====
section
/-! DEFINITION. JMP and JIP (44_control.md): register-indirect jumps; the range of the target is not checked. -/

namespace Sys2Proof.Machine

/-- JMP (44_control.md R190; the operand is a register, 90_conflicts.md C3). -/
def execJmp (rs1 : Reg) (s : State) : Host.Outcome State Fault Refusal :=
  .next (s.endStep clearedFlags (s.target rs1))

/-- JIP: `rs1` holds the target, `rs2` the condition, taken when it is not 0 (44_control.md R191). -/
def execJip (rs1 rs2 : Reg) (s : State) : Host.Outcome State Fault Refusal :=
  .next (s.endStep clearedFlags (if s.source rs2 ≠ 0 then s.target rs1 else s.nextPc))

end Sys2Proof.Machine
end

