-- ==== Sys2Proof/Machine/MemoryAccess.lean ====
section
/-! DEFINITION. LOD and STO (45_memory_access.md). -/

namespace Sys2Proof.Machine

/-- LOD loads the byte at the address in `rs1` (45_memory_access.md R200). -/
def execLod (rs1 rd : Reg) (s : State) : Host.Outcome State Fault Refusal :=
  .next (s.retireResult rd (s.loaded rs1))

/-- STO stores `rs2` at the address in `rs1` (45_memory_access.md R201). -/
def execSto (rs1 rs2 : Reg) (s : State) : Host.Outcome State Fault Refusal :=
  .next ((s.writeMem (s.address rs1) (s.readReg rs2)).endStep clearedFlags s.nextPc)

end Sys2Proof.Machine
end

