-- ==== Sys2Proof/Machine/Move.lean ====
section
/-! DEFINITION. SET and IST (43_move.md). -/

namespace Sys2Proof.Machine

/-- SET copies `rs1` to `rd` (43_move.md R180; source first, 90_conflicts.md C4). -/
def execSet (rs1 rd : Reg) (s : State) : Host.Outcome State Fault Refusal :=
  .next (s.retireResult rd (s.source rs1))

/-- IST sets `rd` to the immediate (43_move.md R181). -/
def execIst (rd : Reg) (imm : Byte) (s : State) : Host.Outcome State Fault Refusal :=
  .next (s.retireResult rd (immediate imm))

end Sys2Proof.Machine
end

