-- ==== Sys2Proof/Machine/System.lean ====
section
/-! DEFINITION. NOP and HALT (41_system.md). -/

namespace Sys2Proof.Machine

/-- NOP clears `status` and advances (41_system.md R140). -/
def execNop (s : State) : Host.Outcome State Fault Refusal := .next (s.endStep clearedFlags s.nextPc)

/-- HALT sets `terminated` and returns at once: no register, flag or pc write (41_system.md R141; 90_conflicts.md C6). -/
def execHalt (s : State) : Host.Outcome State Fault Refusal := .next { s with terminated := true }

end Sys2Proof.Machine
end

