-- ==== Sys2Proof/Machine/Dispatch.lean ====
section
/-! DEFINITION. One arm per instruction: its meaning. -/

namespace Sys2Proof.Machine

def exec (i : Instr) (s : State) : Host.Outcome State Fault Refusal :=
  match i with
  | .nop => Sys2Proof.Machine.execNop s
  | .halt => Sys2Proof.Machine.execHalt s
  | .add rs1 rs2 rd => Sys2Proof.Machine.execAdd rs1 rs2 rd s
  | .sub rs1 rs2 rd => Sys2Proof.Machine.execSub rs1 rs2 rd s
  | .and rs1 rs2 rd => Sys2Proof.Machine.execAnd rs1 rs2 rd s
  | .or rs1 rs2 rd => Sys2Proof.Machine.execOr rs1 rs2 rd s
  | .xor rs1 rs2 rd => Sys2Proof.Machine.execXor rs1 rs2 rd s
  | .not rs1 rd => Sys2Proof.Machine.execNot rs1 rd s
  | .set rs1 rd => Sys2Proof.Machine.execSet rs1 rd s
  | .ist rd imm => Sys2Proof.Machine.execIst rd imm s
  | .jmp rs1 => Sys2Proof.Machine.execJmp rs1 s
  | .jip rs1 rs2 => Sys2Proof.Machine.execJip rs1 rs2 s
  | .lod rs1 rd => Sys2Proof.Machine.execLod rs1 rd s
  | .sto rs1 rs2 => Sys2Proof.Machine.execSto rs1 rs2 s
  | .shl rs1 rs2 rd => Sys2Proof.Machine.execShl rs1 rs2 rd s
  | .shr rs1 rs2 rd => Sys2Proof.Machine.execShr rs1 rs2 rd s

end Sys2Proof.Machine
end

