-- ==== Sys2Proof/Machine/Step.lean ====
section
/-! DEFINITION. One step of the machine (40_step_and_flags.md section 1). -/

namespace Sys2Proof.Machine

/-- `step()` (40_step_and_flags.md R120): a terminated machine does nothing (R121), then a program counter out of bounds
raises the execution error (R122), then the fetched word is decoded and executed (R123). An instruction memory no machine
can have is refused (10_state.md R30; log entry 3); the order of that check is not observable, since an 8-bit program
counter is never out of the bounds of such a memory. -/
def step (s : State) : Host.Outcome State Fault Refusal :=
  if s.terminated then .next s
  else if Config.maxWords < s.imem.length then .refused .imemTooLong
  else
    match s.fetch with
    | none => raiseExecutionError .outOfBounds
    | some w => exec (decode w) s

/-- The state whose next step fetches and runs the instruction of `nbits` bits `w` (log entry 5). -/
def State.withFetchWord (s : State) (nbits w : Nat) : State :=
  s.placeAtPc (BitVec.ofNat 16 (w % 2 ^ nbits))

end Sys2Proof.Machine
end

