-- ==== Sys2Proof/Machine/Lexer.lean ====
section
/-! DEFINITION. The assembler's lexer (30_encoding.md section B.1): source text to tokens, or the first LexError. The text
is a list of characters; offsets count its UTF-8 bytes. -/

namespace Sys2Proof.Asm

/-- A byte-offset span `[start, stop)` of the source text (30_encoding.md R80). -/
structure Span where
  start : Nat
  stop : Nat
deriving DecidableEq, Repr

/-- A token's kind and literal value (30_encoding.md R80). -/
inductive TokenKind where
  | number (value : Nat)
  | identifier (name : List Char)
  | colon
  | endOfFile
deriving DecidableEq, Repr

/-- A token (30_encoding.md R80). -/
structure Token where
  kind : TokenKind
  span : Span
deriving DecidableEq, Repr

/-- An assembler error and its anchor (30_encoding.md R97). -/
structure Error where
  kind : AsmErrorKind
  span : Span
deriving DecidableEq, Repr

/-- What the characters read so far have begun. -/
inductive LexMode where
  /-- Between tokens. -/
  | idle
  /-- In a digit run that began at `start`. -/
  | number (start value : Nat)
  /-- In an identifier that began at `start`. -/
  | word (start : Nat) (name : List Char)
  /-- After a `/` at `start` that must open a comment. -/
  | slash (start : Nat)
  | lineComment
  /-- In a block comment opened at `start`; `star`: the last character after the opening was a `*`. -/
  | blockComment (start : Nat) (star : Bool)
deriving DecidableEq, Repr

/-- A decimal digit (30_encoding.md R83). -/
def isDigit (c : Char) : Bool := 48 ≤ c.toNat && c.toNat ≤ 57

/-- The value of a decimal digit. -/
def digitValue (c : Char) : Nat := c.toNat - 48

/-- An ASCII letter (30_encoding.md R84). -/
def isLetter (c : Char) : Bool :=
  (65 ≤ c.toNat && c.toNat ≤ 90) || (97 ≤ c.toNat && c.toNat ≤ 122)

/-- The skipped characters: space, tab and newline (30_encoding.md R81). A carriage return is not among them. -/
def isBlank (c : Char) : Bool := c = ' ' || c = '\t' || c = '\n'

/-- A character between tokens (30_encoding.md R81 to R85): the tokens it completes and what it begins. -/
def lexIdle (off : Nat) (c : Char) : Except Error (List Token × LexMode) :=
  if isBlank c then .ok ([], .idle)
  else if isDigit c then .ok ([], .number off (digitValue c))
  else if isLetter c then .ok ([], .word off [c])
  else if c = ':' then .ok ([⟨.colon, ⟨off, off + 1⟩⟩], .idle)
  else if c = '/' then .ok ([], .slash off)
  else .error ⟨.unknownCharacter, ⟨off, off + c.utf8Size⟩⟩

/-- Put tokens in front of the tokens of a result. -/
def withTokens (ts : List Token) :
    Except Error (List Token × LexMode) → Except Error (List Token × LexMode)
  | .ok (us, m) => .ok (ts ++ us, m)
  | .error e => .error e

/-- One character in any mode. A digit run or an identifier ends at the first character that is not part of it, which
begins the next token (30_encoding.md R83, R84). A `/` that opens no comment is an unknown character (R85). A block
comment ends at the first closing mark that begins after its opening mark (R82). -/
def lexChar (m : LexMode) (off : Nat) (c : Char) : Except Error (List Token × LexMode) :=
  match m with
  | .idle => lexIdle off c
  | .number start value =>
    if isDigit c then .ok ([], .number start (value * 10 + digitValue c))
    else withTokens [⟨.number value, ⟨start, off⟩⟩] (lexIdle off c)
  | .word start name =>
    if isLetter c || isDigit c then .ok ([], .word start (name ++ [c]))
    else withTokens [⟨.identifier name, ⟨start, off⟩⟩] (lexIdle off c)
  | .slash start =>
    if c = '/' then .ok ([], .lineComment)
    else if c = '*' then .ok ([], .blockComment start false)
    else .error ⟨.unknownCharacter, ⟨start, start + 1⟩⟩
  | .lineComment => .ok ([], if c = '\n' then .idle else .lineComment)
  | .blockComment start star =>
    .ok ([], if star && c = '/' then .idle else .blockComment start (c = '*'))

/-- The end of the text in each mode: the last token, if one is open, and the zero-width EndOfFile token
(30_encoding.md R80); an open block comment is an error anchored at its opening two characters (R82). -/
def lexEnd (m : LexMode) (off : Nat) : Except Error (List Token) :=
  let eof : Token := ⟨.endOfFile, ⟨off, off⟩⟩
  match m with
  | .idle => .ok [eof]
  | .lineComment => .ok [eof]
  | .number start value => .ok [⟨.number value, ⟨start, off⟩⟩, eof]
  | .word start name => .ok [⟨.identifier name, ⟨start, off⟩⟩, eof]
  | .slash start => .error ⟨.unknownCharacter, ⟨start, start + 1⟩⟩
  | .blockComment start _ => .error ⟨.unterminatedComment, ⟨start, start + 2⟩⟩

/-- The tokens of the text from an offset on, in a mode. -/
def lexFrom (m : LexMode) (off : Nat) : List Char → Except Error (List Token)
  | [] => lexEnd m off
  | c :: cs =>
    match lexChar m off c with
    | .error e => .error e
    | .ok (ts, m') =>
      match lexFrom m' (off + c.utf8Size) cs with
      | .error e => .error e
      | .ok us => .ok (ts ++ us)

/-- The lexer (30_encoding.md R80). -/
def lex (source : List Char) : Except Error (List Token) := lexFrom .idle 0 source

/-- The length of a text in bytes, where the EndOfFile token stands. -/
def byteLength : List Char → Nat
  | [] => 0
  | c :: cs => c.utf8Size + byteLength cs

end Sys2Proof.Asm
end

