-- ==== Sys2Proof/Machine/Assembler.lean ====
section
/-! DEFINITION. The assembler (30_encoding.md sections B.2 to B.4): tokens to instruction words, or the first error. -/

namespace Sys2Proof.Asm

/-- The argument kinds of the instruction table (00_scope.md R11; 30_encoding.md R89). -/
inductive ArgKind where
  /-- A register read as a source. -/
  | reg
  /-- A register written as the destination. -/
  | writereg
  /-- An 8-bit number or a label. -/
  | num
deriving DecidableEq, Repr

/-- An argument as parsed; a label is resolved in the second pass. -/
inductive Arg where
  | reg (r : Reg)
  | imm (v : Byte)
  | label (reference : Token)
deriving DecidableEq, Repr

/-- The mnemonic of an opcode, in capitals (30_encoding.md R75). -/
def mnemonic : Opcode → List Char
  | .nop => ['N', 'O', 'P']
  | .halt => ['H', 'A', 'L', 'T']
  | .add => ['A', 'D', 'D']
  | .sub => ['S', 'U', 'B']
  | .and => ['A', 'N', 'D']
  | .or => ['O', 'R']
  | .xor => ['X', 'O', 'R']
  | .not => ['N', 'O', 'T']
  | .set => ['S', 'E', 'T']
  | .ist => ['I', 'S', 'T']
  | .jmp => ['J', 'M', 'P']
  | .jip => ['J', 'I', 'P']
  | .lod => ['L', 'O', 'D']
  | .sto => ['S', 'T', 'O']
  | .shl => ['S', 'H', 'L']
  | .shr => ['S', 'H', 'R']

/-- The arguments of each format, in the order of the source text (30_encoding.md R89): the destination is always last. -/
def formatArgs : Format → List ArgKind
  | .n => []
  | .rrw => [.reg, .reg, .writereg]
  | .rw => [.reg, .writereg]
  | .rr => [.reg, .reg]
  | .r => [.reg]
  | .wi => [.num, .writereg]

/-- A letter in capitals; any other character as it is. -/
def upper (c : Char) : Char :=
  if 97 ≤ c.toNat && c.toNat ≤ 122 then Char.ofNat (c.toNat - 32) else c

/-- The opcode of a mnemonic, whatever the case of its letters (30_encoding.md R88). -/
def opcodeNamed (name : List Char) : Option Opcode :=
  opcodeTable.toList.find? fun op => mnemonic op = name.map upper

/-- The names of the 16 registers in the order of their numbers, case-sensitive (10_state.md R21). -/
def registerNames : Vector (List Char) 16 :=
  #v[['r', '0'], ['r', '1'], ['r', '2'], ['r', '3'], ['r', '4'], ['r', '5'], ['r', '6'], ['r', '7'],
    ['r', '8'], ['r', '9'], ['r', '1', '0'], ['r', '1', '1'], ['r', '1', '2'], ['r', '1', '3'],
    ['z', 'e', 'r', 'o'], ['s', 't', 'a', 't', 'u', 's']]

/-- The register of a name (30_encoding.md R91). -/
def registerNamed (name : List Char) : Option Reg :=
  (List.finRange 16).find? fun r => registerNames[r] = name

/-- A register argument: an identifier that names a register (30_encoding.md R91). -/
def parseReg (t : Token) : Except Error Reg :=
  match t.kind with
  | .identifier name =>
    match registerNamed name with
    | some r => .ok r
    | none => .error ⟨.unknownRegister, t.span⟩
  | .number _ => .error ⟨.missingRegister, t.span⟩
  | .colon => .error ⟨.missingRegister, t.span⟩
  | .endOfFile => .error ⟨.missingRegister, t.span⟩

/-- One argument of a kind (30_encoding.md R91, R92). -/
def parseArg (k : ArgKind) (t : Token) : Except Error Arg :=
  match k with
  | .reg =>
    match parseReg t with
    | .ok r => .ok (.reg r)
    | .error e => .error e
  | .writereg =>
    match parseReg t with
    | .ok r => if r.writable then .ok (.reg r) else .error ⟨.notWritable, t.span⟩
    | .error e => .error e
  | .num =>
    match t.kind with
    | .number v => if v ≤ 255 then .ok (.imm (BitVec.ofNat 8 v)) else .error ⟨.immediateTooLarge, t.span⟩
    | .identifier _ => .ok (.label t)
    | .colon => .error ⟨.missingNumberOrLabel, t.span⟩
    | .endOfFile => .error ⟨.missingNumberOrLabel, t.span⟩

/-- Put arguments into a word: registers fill 4-bit fields left to right from bit `hi` down, an immediate takes bits
[7:0], and a label's bits stay 0 until it is resolved (30_encoding.md R92, R93). -/
def placeArgs : Nat → Word → List Arg → Word
  | _, w, [] => w
  | hi, w, .reg r :: rest => placeArgs (hi - 4) (w ||| (BitVec.ofNat 16 r.val <<< (hi - 3))) rest
  | hi, w, .imm v :: rest => placeArgs hi (w ||| v.setWidth 16) rest
  | hi, w, .label _ :: rest => placeArgs hi w rest

/-- The emitted word: `op << 12` and the arguments in their fields, every other bit 0 (30_encoding.md R93). -/
def emitWord (op : Opcode) (args : List Arg) : Word :=
  placeArgs 11 (BitVec.ofNat 16 op.number.val <<< 12) args

/-- The words, labels and label references found so far. -/
structure Assembly where
  words : List Word
  /-- The LabelTable: names and the indices of the words they stand before (30_encoding.md R87). -/
  labels : List (List Char × Nat)
  /-- The PatchList: indices of words and the references to put into them (30_encoding.md R92). -/
  patches : List (Nat × Token)
deriving DecidableEq, Repr

/-- Nothing assembled yet. -/
def Assembly.empty : Assembly := ⟨[], [], []⟩

/-- The label references among the arguments of the word with an index. -/
def labelRefs (index : Nat) : List Arg → List (Nat × Token)
  | [] => []
  | .label t :: rest => (index, t) :: labelRefs index rest
  | .reg _ :: rest => labelRefs index rest
  | .imm _ :: rest => labelRefs index rest

/-- Append one statement's word and record its label references (30_encoding.md R92, R93). -/
def Assembly.emit (a : Assembly) (op : Opcode) (args : List Arg) : Assembly :=
  { a with
    words := a.words ++ [emitWord op args]
    patches := a.patches ++ labelRefs a.words.length args }

/-- The index a label stands for, or nothing if it is not defined. -/
def labelIndex (labels : List (List Char × Nat)) (name : List Char) : Option Nat :=
  (labels.find? fun p => p.1 = name).map Prod.snd

/-- What the parser expects next. -/
inductive ParseMode where
  /-- A statement: its label, its mnemonic, or the end of the text. -/
  | statement
  /-- The colon that was seen after a label. -/
  | colon
  /-- The mnemonic after a label. -/
  | mnemonic
  /-- An argument of kind `k`, then those of `ks`; `args` are parsed. -/
  | argument (op : Opcode) (k : ArgKind) (ks : List ArgKind) (args : List Arg)
deriving DecidableEq, Repr

/-- A mnemonic (30_encoding.md R88): a statement without arguments is emitted at once. -/
def parseMnemonic (a : Assembly) (t : Token) : Except Error (ParseMode × Assembly) :=
  match t.kind with
  | .identifier name =>
    match opcodeNamed name with
    | none => .error ⟨.unknownMnemonic, t.span⟩
    | some op =>
      match formatArgs op.format with
      | [] => .ok (.statement, a.emit op [])
      | k :: ks => .ok (.argument op k ks [], a)
  | .number _ => .error ⟨.missingInstruction, t.span⟩
  | .colon => .error ⟨.missingInstruction, t.span⟩
  | .endOfFile => .error ⟨.missingInstruction, t.span⟩

/-- The next token is a colon. -/
def beforeColon : List Token → Bool
  | [] => false
  | t :: _ => t.kind = .colon

/-- One token, with the tokens after it (30_encoding.md R86 to R92). An identifier before a colon, where a statement may
begin, is a label; a second definition of one is an error at that place (R87). -/
def parseToken (m : ParseMode) (a : Assembly) (t : Token) (rest : List Token) :
    Except Error (ParseMode × Assembly) :=
  match m with
  | .statement =>
    match t.kind with
    | .endOfFile => .ok (.statement, a)
    | .identifier name =>
      if beforeColon rest then
        match labelIndex a.labels name with
        | some _ => .error ⟨.duplicateLabel, t.span⟩
        | none => .ok (.colon, { a with labels := a.labels ++ [(name, a.words.length)] })
      else parseMnemonic a t
    | .number _ => .error ⟨.missingInstruction, t.span⟩
    | .colon => .error ⟨.missingInstruction, t.span⟩
  | .colon => .ok (.mnemonic, a)
  | .mnemonic => parseMnemonic a t
  | .argument op k ks args =>
    match parseArg k t with
    | .error e => .error e
    | .ok arg =>
      match ks with
      | [] => .ok (.statement, a.emit op (args ++ [arg]))
      | k' :: ks' => .ok (.argument op k' ks' (args ++ [arg]), a)

/-- The first pass over the tokens. The lexer ends every token list with EndOfFile, after which nothing follows. -/
def parseFrom (m : ParseMode) (a : Assembly) : List Token → Except Error Assembly
  | [] => .ok a
  | t :: rest =>
    match parseToken m a t rest with
    | .error e => .error e
    | .ok (m', a') => parseFrom m' a' rest

/-- The first pass (30_encoding.md R86). -/
def parse (tokens : List Token) : Except Error Assembly := parseFrom .statement Assembly.empty tokens

/-- Overwrite bits [7:0] of a word, leaving its opcode and register fields (30_encoding.md R94). -/
def patchWord (index : Nat) (w : Word) : Word := (w &&& 0xFF00#16) ||| (BitVec.ofNat 8 index).setWidth 16

/-- The second pass: resolve every label reference, in order (30_encoding.md R94). -/
def resolve (labels : List (List Char × Nat)) : List (Nat × Token) → List Word → Except Error (List Word)
  | [], words => .ok words
  | (i, t) :: rest, words =>
    match t.kind with
    | .identifier name =>
      match labelIndex labels name with
      | some index => resolve labels rest (words.modify i (patchWord index))
      | none => .error ⟨.undefinedLabel, t.span⟩
    | .number _ => resolve labels rest words
    | .colon => resolve labels rest words
    | .endOfFile => resolve labels rest words

/-- The final check: 256 or more words are a capacity error at the end of the text (30_encoding.md R95). -/
def checkCapacity (stop : Nat) (words : List Word) : Except Error (List Word) :=
  if 256 ≤ words.length then .error ⟨.programTooLong words.length, ⟨stop, stop⟩⟩ else .ok words

/-- The assembler: the words of a source text, or the first error (30_encoding.md R96, R97). -/
def assemble (source : List Char) : Except Error (List Word) :=
  match lex source with
  | .error e => .error e
  | .ok tokens =>
    match parse tokens with
    | .error e => .error e
    | .ok a =>
      match resolve a.labels a.patches a.words with
      | .error e => .error e
      | .ok words => checkCapacity (byteLength source) words

/-- The operands of an instruction as source text, in the order of 30_encoding.md R89. -/
def operandTexts : Instr → List (List Char)
  | .nop => []
  | .halt => []
  | .add rs1 rs2 rd => [registerNames[rs1], registerNames[rs2], registerNames[rd]]
  | .sub rs1 rs2 rd => [registerNames[rs1], registerNames[rs2], registerNames[rd]]
  | .and rs1 rs2 rd => [registerNames[rs1], registerNames[rs2], registerNames[rd]]
  | .or rs1 rs2 rd => [registerNames[rs1], registerNames[rs2], registerNames[rd]]
  | .xor rs1 rs2 rd => [registerNames[rs1], registerNames[rs2], registerNames[rd]]
  | .not rs1 rd => [registerNames[rs1], registerNames[rd]]
  | .set rs1 rd => [registerNames[rs1], registerNames[rd]]
  | .ist rd imm => [Nat.toDigits 10 imm.toNat, registerNames[rd]]
  | .jmp rs1 => [registerNames[rs1]]
  | .jip rs1 rs2 => [registerNames[rs1], registerNames[rs2]]
  | .lod rs1 rd => [registerNames[rs1], registerNames[rd]]
  | .sto rs1 rs2 => [registerNames[rs1], registerNames[rs2]]
  | .shl rs1 rs2 rd => [registerNames[rs1], registerNames[rs2], registerNames[rd]]
  | .shr rs1 rs2 rd => [registerNames[rs1], registerNames[rs2], registerNames[rd]]

/-- One statement of source text for an instruction: the mnemonic and the operands, a space between, a newline at the
end. -/
def statementText (i : Instr) : List Char :=
  mnemonic i.opcode ++ (operandTexts i).flatMap (fun t => ' ' :: t) ++ ['\n']

/-- The source text of a list of instructions. -/
def programText (is : List Instr) : List Char := is.flatMap statementText

end Sys2Proof.Asm
end

