-- ==== Sys2Proof/Machine/Interface.lean ====
section
/-! DEFINITION. The block interface to the host (10_state.md section 6): construction, the commands, the readable state,
and how a run ends (70_reset_and_hazards.md R233). -/

namespace Sys2Proof.Machine

/-- The command input `cmd` (10_state.md R32). -/
inductive Command where
  | idle | reset | step
deriving DecidableEq, Repr

/-- The `result` output (10_state.md R32): `none` is NONE, `errOob` is ERR_OOB. -/
inductive Result where
  | none | ok | noop | errOob
deriving DecidableEq, Repr

/-- The read ports `pc_out`, `terminated_out`, `reg_out` and `mem_out` (10_state.md R32). -/
structure Ports where
  pcOut : Index
  terminatedOut : Bool
  regOut : Vector Byte 16
  memOut : Vector Byte 256
deriving DecidableEq, Repr

/-- Everything the host can read of a state (10_state.md R32, R33). -/
def State.ports (s : State) : Ports where
  pcOut := s.pc
  terminatedOut := s.terminated
  regOut := s.regs
  memOut := Vector.ofFn fun a => s.mem.read a.val

/-- Construction from a word array (10_state.md R30, 70_reset_and_hazards.md R231): the reset state with that instruction
memory; an array of 256 or more words is refused. -/
def State.construct (words : List Word) : Host.Outcome State Fault Refusal :=
  if programFits words then .next { State.reset with imem := words } else .refused .imemTooLong

/-- One clock: the state after a command and the `result` it gives (10_state.md R32). An ExecutionError is reported and
leaves the state as it was (60_exceptions.md R210, R215). -/
def clock (c : Command) (s : State) : Except Refusal (State × Result) :=
  match c with
  | .idle => .ok (s, .none)
  | .reset => .ok (s.resetKeepingImem, .none)
  | .step =>
    match step s with
    | .next t => .ok (t, if s.terminated then .noop else .ok)
    | .fault .outOfBounds => .ok (s, .errOob)
    | .refused r => .error r

/-- The clocks of a sequence of commands: the final state and every `result`, oldest first. -/
def clocks : List Command → State → Except Refusal (State × List Result)
  | [], s => .ok (s, [])
  | c :: cs, s =>
    match clock c s with
    | .error r => .error r
    | .ok (t, res) =>
      match clocks cs t with
      | .error r => .error r
      | .ok (u, results) => .ok (u, res :: results)

/-- The message of the execution error: "a plain runtime message with no source span" (60_exceptions.md R210). -/
def Fault.message : Fault → List Char
  | .outOfBounds => ['o', 'u', 't', ' ', 'o', 'f', ' ', 'b', 'o', 'u', 'n', 'd', 's']

/-- How a run stands after some steps (70_reset_and_hazards.md R233). -/
inductive RunStatus where
  /-- Normal end: HALT was executed; the final state. -/
  | ended (s : State)
  /-- Fault: a step raised an ExecutionError; the state before that step, which is also the state after it. -/
  | faulted (r : Fault) (s : State)
  /-- The run has not ended. -/
  | going (s : State)
  /-- The model refuses the machine. -/
  | refused (r : Refusal)
deriving DecidableEq, Repr

/-- Run at most `n` steps, stopping at the end of the run (70_reset_and_hazards.md R233; 93_implementation_defined.md
I12: a run that does not end is run under fuel and never called finished). -/
def runFor : Nat → State → RunStatus
  | 0, s => if s.terminated then .ended s else .going s
  | n + 1, s =>
    if s.terminated then .ended s
    else
      match step s with
      | .next t => runFor n t
      | .fault r => .faulted r s
      | .refused r => .refused r

end Sys2Proof.Machine
end

