-- ==== Sys2Proof/Machine/Render.lean ====
section
/-! DEFINITION. The structured error of the assembler and the rendering of errors (30_encoding.md R96, R98). -/

namespace Sys2Proof.Asm

/-- "A structured error (kind, byte span, message, source text)" (30_encoding.md R96). -/
structure Report where
  kind : AsmErrorKind
  span : Span
  message : List Char
  source : List Char
deriving DecidableEq, Repr

/-- The structured error of an error in a source text; its message is free (log entry 15). -/
def report (source : List Char) (e : Error) : Report := ⟨e.kind, e.span, Config.asmErrorText e.kind, source⟩

/-- The output of the assembler: the word array or the structured error, never both (30_encoding.md R96). -/
def assembleOrReport (source : List Char) : Except Report (List Word) := (assemble source).mapError (report source)

/-- One line of the source: its 1-based number, its text, and the byte span of the text. -/
structure Line where
  number : Nat
  text : List Char
  span : Span
deriving DecidableEq, Repr

/-- The lines of a text from line `n`, which began at `start` and so far reads `text`, at offset `off`. -/
def linesFrom (n start off : Nat) (text : List Char) : List Char → List Line
  | [] => [⟨n, text, ⟨start, off⟩⟩]
  | c :: cs =>
    if c = '\n' then ⟨n, text, ⟨start, off⟩⟩ :: linesFrom (n + 1) (off + 1) (off + 1) [] cs
    else linesFrom n start (off + c.utf8Size) (text ++ [c]) cs

/-- The lines of a source text. -/
def sourceLines (source : List Char) : List Line := linesFrom 1 0 0 [] source

/-- A line overlaps a span when they share a byte, the newline at the end of a line counted with it. A span of width 0 is
taken to overlap the line it stands on. DESIGN CHOICE, log entry 19. -/
def Line.overlaps (l : Line) (sp : Span) : Bool :=
  if sp.start = sp.stop then l.span.start ≤ sp.start && sp.start ≤ l.span.stop
  else l.span.start < sp.stop && sp.start ≤ l.span.stop

/-- The underline of a line: `^` under each character of the span, spaces before (30_encoding.md R98). `off` is the
offset of the first character. -/
def underlineFrom (sp : Span) (off : Nat) : List Char → List Char
  | [] => []
  | c :: cs =>
    if sp.stop ≤ off then []
    else (if sp.start ≤ off then '^' else ' ') :: underlineFrom sp (off + c.utf8Size) cs

/-- The source lines a span is on (30_encoding.md R98). -/
def shownLines (source : List Char) (sp : Span) : List Line := (sourceLines source).filter fun l => l.overlaps sp

/-- A line as it is shown: verbatim, and under it its underline (30_encoding.md R98). -/
def Line.shown (sp : Span) (l : Line) : List (List Char) := [l.text, underlineFrom sp l.span.start l.text]

/-- "At line N", or "At lines N-M" where the span crosses lines (30_encoding.md R98). A span past the end of the text is
on no line and has no location. -/
def locationText : List Line → List Char
  | [] => []
  | [l] => ['A', 't', ' ', 'l', 'i', 'n', 'e', ' '] ++ Nat.toDigits 10 l.number
  | l :: l' :: ls =>
    ['A', 't', ' ', 'l', 'i', 'n', 'e', 's', ' '] ++ Nat.toDigits 10 l.number ++ ['-'] ++
      Nat.toDigits 10 ((l' :: ls).getLastD l').number

/-- The renderer (30_encoding.md R98): for a byte span and a message, the message, the lines the span is on with their
underlines, and after them the location. The message's place before the lines, and a newline between these parts, are a
DESIGN CHOICE, log entry 19. -/
def render (source : List Char) (sp : Span) (message : List Char) : List Char :=
  let shown := shownLines source sp
  ['\n'].intercalate (message :: shown.flatMap (Line.shown sp) ++ [locationText shown])

/-- The rendering of an assembler error. -/
def Report.render (r : Report) : List Char := Asm.render r.source r.span r.message

/-- An error of the assembler or of a run. -/
inductive Diagnostic where
  | assembler (r : Report)
  | execution (f : Machine.Fault)
deriving DecidableEq, Repr

/-- What is shown of an error: an ExecutionError is its message, without a source span (30_encoding.md R98;
60_exceptions.md R210). -/
def Diagnostic.render : Diagnostic → List Char
  | .assembler r => r.render
  | .execution f => f.message

end Sys2Proof.Asm
end

