-- ==== Sys2Proof/Safety.lean ====
section
/-! DEFINITION. What a good state and a reachable state are, and the terms in which claims about instructions are made. -/

namespace Sys2Proof.Machine

/-- The status bytes the classifier can produce: 0, 1, 4 and 6 (40_step_and_flags.md R125). -/
def legalStatus (b : Byte) : Bool := b = 0 || b = 1 || b = 4 || b = 6

/-- The invariant of every state a machine reaches (10_state.md R31): the data memory is in canonical form, the stored
cell of `zero` is 0 (R23), `status` holds a byte of the classifier (R25; 40_step_and_flags.md R125), and the instruction
memory has at most 255 words (R30). That registers, memory cells and the program counter are at most 255 is in their
types. -/
structure State.Inv (s : State) : Prop where
  memory : s.mem.wf = true
  zero : s.regs[Reg.zero] = 0
  status : legalStatus s.regs[Reg.status] = true
  imem : programFits s.imem = true

/-- The states of a machine constructed from `words`, under any commands of its host (10_state.md R32, R33). -/
inductive Reachable (words : List Word) : State → Prop where
  | construct {s : State} (h : State.construct words = .next s) : Reachable words s
  | clock {s t : State} {c : Command} {r : Result} (hs : Reachable words s) (h : clock c s = .ok (t, r)) :
      Reachable words t

/-- Every byte of data memory reads as before. -/
def SameMemory (s t : State) : Prop := ∀ a : Byte, t.readMem a = s.readMem a

/-- What is left of a step that writes no general register: registers 0 to 13 and the instruction memory and the halt bit
are unchanged, `zero` is forced to 0, `status` is `flags`, and the program counter is `target`
(40_step_and_flags.md R128, R129). It says nothing of the data memory. -/
structure NoRegisterResult (s t : State) (flags : Byte) (target : Index) : Prop where
  others : ∀ r : Reg, r ≠ Reg.zero → r ≠ Reg.status → t.readReg r = s.readReg r
  zero : t.regs[Reg.zero] = 0
  status : t.readReg Reg.status = flags
  pc : t.pc = target
  imem : t.imem = s.imem
  terminated : t.terminated = s.terminated

/-- A step that writes `v` to `rd` and classifies it as `flags` (40_step_and_flags.md R127 to R129): a general register
`rd` holds `v`, every other general register, the data memory, the instruction memory and the halt bit are unchanged,
`zero` is forced to 0, `status` is `flags`, and the program counter advances by 1. Where `rd` is `zero` or `status`
nothing else holds `v` (R131). -/
structure RegisterResult (s t : State) (rd : Reg) (v flags : Byte) : Prop where
  written : rd ≠ Reg.zero → rd ≠ Reg.status → t.readReg rd = v
  others : ∀ r : Reg, r ≠ rd → r ≠ Reg.zero → r ≠ Reg.status → t.readReg r = s.readReg r
  zero : t.regs[Reg.zero] = 0
  status : t.readReg Reg.status = flags
  pc : t.pc = s.pc + 1
  memory : SameMemory s t
  imem : t.imem = s.imem
  terminated : t.terminated = s.terminated

/-- The assembler's word for an opcode and arguments in source order is `w`, and the decoder reads `i` from it. -/
def EncodedBy (op : Opcode) (args : List Asm.Arg) (w : Word) (i : Instr) : Prop :=
  Asm.emitWord op args = w ∧ decode w = i

end Sys2Proof.Machine
end

