-- ==== Sys2Proof/Certificates/Slice0/Obligations.lean ====
section
/-! DEFINITION. The statements for the provers. -/

section
open Sys2Proof Sys2Proof.Machine Sys2Proof.Asm

/-! ## Encoding -/

/-- One word of each format, written out from 30_encoding.md R75, and two with unused bits set (95_test_vectors.md
section 2.8): that these, 0xA3FF and 0xD12F, are JMP and STO rests on R77, the spec's decision D7, log entry 11. -/
def Obligations.WrittenOutWordsDecode : Prop :=
  decode 0b0000000000000000#16 = .nop ∧
  decode 0b0001000000000000#16 = .halt ∧
  decode 0b0010000100100011#16 = .add 1 2 3 ∧
  decode 0b0111101010110000#16 = .not 10 11 ∧
  decode 0b1001010110101011#16 = .ist 5 171 ∧
  decode 0b1010001111111111#16 = .jmp 3 ∧
  decode 0b1011011110000000#16 = .jip 7 8 ∧
  decode 0b1101000100101111#16 = .sto 1 2 ∧
  decode 0b1111001100100001#16 = .shr 3 2 1

/-- The decoder reads back every instruction from its word, with every operand at every value (30_encoding.md R72, R73,
R75). -/
def Obligations.DecodeOfEncodeIsTheInstruction : Prop :=
  ∀ i : Instr, decode (encode i) = i

/-- Unused bits are ignored (30_encoding.md R77, the spec's decision D7; log entry 11): encoding what a word decodes to
gives the word with its unused bits cleared, and two words that differ in unused bits only are one instruction. -/
def Obligations.UnusedBitsAreIgnored : Prop :=
  ∀ w : Word,
    encode (decode w) = w &&& (opcodeOf w).format.usedBits ∧
    ∀ w' : Word, opcodeOf w' = opcodeOf w →
      w' &&& (opcodeOf w).format.usedBits = w &&& (opcodeOf w).format.usedBits → decode w' = decode w

/-- 30_encoding.md R76: bits [15:12] alone select the instruction, all 16 values are assigned to different opcodes, and no
word raises an exception: whatever a word decodes to, executing it answers a next state, in every state. -/
def Obligations.EveryWordSelectsOneInstructionAndExecutes : Prop :=
  (∀ w : Word, (decode w).opcode.number.val = w.toNat / 4096) ∧
  (∀ w w' : Word, w.toNat / 4096 = w'.toNat / 4096 ↔ (decode w).opcode = (decode w').opcode) ∧
  (∀ op : Opcode, ∃ w : Word, (decode w).opcode = op) ∧
  (∀ (w : Word) (s : State), ∃ t, exec (decode w) s = .next t)

/-! ## The step -/

/-- 40_step_and_flags.md R123: a machine that is not terminated and whose program counter is in bounds executes the
instruction its word at the program counter decodes to, whatever that word is. -/
def Obligations.StepExecutesTheFetchedInstruction : Prop :=
  ∀ (s : State) (w : Word), s.terminated = false → programFits s.imem = true → s.imem[s.pc.toNat]? = some w →
    step s = exec (decode w) s

/-- 40_step_and_flags.md R122: a machine that is not terminated and whose program counter is at or past the end of its
instruction memory raises the execution error, and the host sees ERR_OOB and the same state. With an empty instruction
memory every step of a machine that is not terminated does so. -/
def Obligations.StepOutOfBoundsRaisesTheError : Prop :=
  (∀ s : State, s.terminated = false → s.imem.length ≤ s.pc.toNat →
    step s = .fault .outOfBounds ∧ clock .step s = .ok (s, .errOob)) ∧
  (∀ s : State, s.terminated = false → s.imem = [] →
    step s = .fault .outOfBounds ∧ clock .step s = .ok (s, .errOob))

/-- 10_state.md R28: HALT sets the halt bit; no other instruction changes it; only reset clears it; while it is set a step
changes nothing and raises nothing, whatever the program counter; the host can read it. -/
def Obligations.HaltBitIsSetByHaltAndClearedByReset : Prop :=
  (∀ s : State, ∃ t, exec .halt s = .next t ∧ t.terminated = true) ∧
  (∀ (i : Instr) (s t : State), i ≠ .halt → exec i s = .next t → t.terminated = s.terminated) ∧
  (∀ (c : Command) (s t : State) (r : Result), clock c s = .ok (t, r) → s.terminated = true → t.terminated = false →
    c = .reset) ∧
  (∀ s : State, ∃ t, clock .reset s = .ok (t, .none) ∧ t.terminated = false) ∧
  (∀ s : State, s.terminated = true → step s = .next s ∧ clock .step s = .ok (s, .noop)) ∧
  (∀ s : State, s.ports.terminatedOut = s.terminated)

/-- 60_exceptions.md R214 and the outcomes of 40_step_and_flags.md R120, in the result names of the spec's decisions D2
and D12 (log entry 14): the checks are made in the order terminated, out of bounds, execution, and exactly one applies. -/
def Obligations.StepOutcomesInOrder : Prop :=
  ∀ s : State, programFits s.imem = true →
    (s.terminated = true → clock .step s = .ok (s, .noop)) ∧
    (s.terminated = false → s.imem.length ≤ s.pc.toNat → clock .step s = .ok (s, .errOob)) ∧
    (s.terminated = false → s.pc.toNat < s.imem.length →
      ∃ w t, s.imem[s.pc.toNat]? = some w ∧ exec (decode w) s = .next t ∧ clock .step s = .ok (t, .ok))

/-- 60_exceptions.md R216: after an ExecutionError every later step raises it again, for ever, and the state stays; a
reset leads out of it when there is a first word (log entry 14 for the result names). -/
def Obligations.ExecutionErrorRepeatsUntilReset : Prop :=
  ∀ s t : State, clock .step s = .ok (t, .errOob) →
    t = s ∧
    (∀ n : Nat, clocks (List.replicate n .step) s = .ok (s, List.replicate n .errOob)) ∧
    (s.imem ≠ [] → ∃ u v, clock .reset s = .ok (u, .none) ∧ clock .step u = .ok (v, .ok))

/-- The model's own placing of a word (log entry 5): the next step decodes and runs exactly that word, and nothing but the
instruction memory, the halt bit and a program counter no instruction memory reaches is touched. -/
def Obligations.PlacedWordIsTheOneExecuted : Prop :=
  ∀ (s : State) (w : Nat), w < 2 ^ 16 →
    step (s.withFetchWord 16 w) = exec (decode (BitVec.ofNat 16 w)) (s.withFetchWord 16 w) ∧
    decodeTableWord 16 w = some (decode (BitVec.ofNat 16 w)) ∧
    (s.withFetchWord 16 w).regs = s.regs ∧ (s.withFetchWord 16 w).mem = s.mem ∧
    (s.pc.toNat < 255 → (s.withFetchWord 16 w).pc = s.pc) ∧
    (programFits s.imem = true → ∀ k, k < s.imem.length → k ≠ s.pc.toNat → s.pc.toNat < 255 →
      (s.withFetchWord 16 w).imem[k]? = s.imem[k]?)

/-! ## The instructions -/

/-- NOP (41_system.md R140, ignored bits by the spec's decision D7): clears `status`, advances, changes nothing else. -/
def Obligations.NopClearsStatusAndAdvances : Prop :=
  (∀ u : BitVec 12, decode (0x0#4 ++ u) = .nop) ∧ EncodedBy .nop [] 0x0000#16 .nop ∧
  ∀ s : State, ∃ t, exec .nop s = .next t ∧ NoRegisterResult s t 0 (s.pc + 1) ∧ SameMemory s t

/-- HALT (41_system.md R141; 90_conflicts.md C6, log entry 18; ignored bits by decision D7): sets the halt bit and changes
nothing else: no register, not `status`, no memory cell, not the program counter. -/
def Obligations.HaltSetsTheHaltBitOnly : Prop :=
  (∀ u : BitVec 12, decode (0x1#4 ++ u) = .halt) ∧ EncodedBy .halt [] 0x1000#16 .halt ∧
  ∀ s : State, ∃ t, exec .halt s = .next t ∧ t.terminated = true ∧ (∀ r : Reg, t.regs[r] = s.regs[r]) ∧
    t.pc = s.pc ∧ SameMemory s t ∧ t.imem = s.imem

/-- ADD (42_alu.md R150; sums above 255 are stored modulo 256 by the spec's decision D4, log entry 8). -/
def Obligations.AddStoresTheSumAndItsFlags : Prop :=
  ∀ (rs1 rs2 rd : Reg) (s : State),
    let sum := (s.readReg rs1).toNat + (s.readReg rs2).toNat
    EncodedBy .add [.reg rs1, .reg rs2, .reg rd] (0x2#4 ++ bits4 rs1 ++ bits4 rs2 ++ bits4 rd) (.add rs1 rs2 rd) ∧
    ∃ t, exec (.add rs1 rs2 rd) s = .next t ∧
      RegisterResult s t rd (s.readReg rs1 + s.readReg rs2) (if sum = 0 then 1 else if sum < 256 then 0 else 4)

/-- SUB (42_alu.md R151; differences below 0 are stored modulo 256 by the spec's decision D4, log entry 8). -/
def Obligations.SubStoresTheDifferenceAndItsFlags : Prop :=
  ∀ (rs1 rs2 rd : Reg) (s : State),
    let a := (s.readReg rs1).toNat
    let b := (s.readReg rs2).toNat
    EncodedBy .sub [.reg rs1, .reg rs2, .reg rd] (0x3#4 ++ bits4 rs1 ++ bits4 rs2 ++ bits4 rd) (.sub rs1 rs2 rd) ∧
    ∃ t, exec (.sub rs1 rs2 rd) s = .next t ∧
      RegisterResult s t rd (s.readReg rs1 - s.readReg rs2) (if a = b then 1 else if a < b then 6 else 0)

/-- AND (42_alu.md R152), for the destinations the assembler accepts; the others are `DiscardedDestination…`. -/
def Obligations.AndStoresTheConjunctionAndItsFlags : Prop :=
  ∀ (rs1 rs2 rd : Reg) (s : State), rd.writable = true →
    EncodedBy .and [.reg rs1, .reg rs2, .reg rd] (0x4#4 ++ bits4 rs1 ++ bits4 rs2 ++ bits4 rd) (.and rs1 rs2 rd) ∧
    ∃ t, exec (.and rs1 rs2 rd) s = .next t ∧
      RegisterResult s t rd (s.readReg rs1 &&& s.readReg rs2)
        (if s.readReg rs1 &&& s.readReg rs2 = 0 then 1 else 0)

/-- OR (42_alu.md R153), for the destinations the assembler accepts; the others are `DiscardedDestination…`. -/
def Obligations.OrStoresTheDisjunctionAndItsFlags : Prop :=
  ∀ (rs1 rs2 rd : Reg) (s : State), rd.writable = true →
    EncodedBy .or [.reg rs1, .reg rs2, .reg rd] (0x5#4 ++ bits4 rs1 ++ bits4 rs2 ++ bits4 rd) (.or rs1 rs2 rd) ∧
    ∃ t, exec (.or rs1 rs2 rd) s = .next t ∧
      RegisterResult s t rd (s.readReg rs1 ||| s.readReg rs2)
        (if s.readReg rs1 = 0 ∧ s.readReg rs2 = 0 then 1 else 0)

/-- XOR (42_alu.md R154), for the destinations the assembler accepts; the others are `DiscardedDestination…`. -/
def Obligations.XorStoresTheExclusiveOrAndItsFlags : Prop :=
  ∀ (rs1 rs2 rd : Reg) (s : State), rd.writable = true →
    EncodedBy .xor [.reg rs1, .reg rs2, .reg rd] (0x6#4 ++ bits4 rs1 ++ bits4 rs2 ++ bits4 rd) (.xor rs1 rs2 rd) ∧
    ∃ t, exec (.xor rs1 rs2 rd) s = .next t ∧
      RegisterResult s t rd (s.readReg rs1 ^^^ s.readReg rs2)
        (if s.readReg rs1 = s.readReg rs2 then 1 else 0)

/-- NOT (42_alu.md R155): always leaves 6 (the spec's decision D5, log entry 9) and stores the negative raw result modulo
256, which is 255 - a (decision D4, log entry 8; ignored bits by decision D7, log entry 11). -/
def Obligations.NotStoresTheComplementAndLeavesSix : Prop :=
  ∀ (rs1 rd : Reg) (s : State),
    EncodedBy .not [.reg rs1, .reg rd] (0x7#4 ++ bits4 rs1 ++ bits4 rd ++ 0#4) (.not rs1 rd) ∧
    (∀ u : BitVec 4, decode (0x7#4 ++ bits4 rs1 ++ bits4 rd ++ u) = .not rs1 rd) ∧
    ∃ t, exec (.not rs1 rd) s = .next t ∧ RegisterResult s t rd (255 - s.readReg rs1) 6

/-- SHL (42_alu.md R156): the whole 8-bit count counts (the spec's decision D6, log entry 10), results above 255 are
stored modulo 256 (D4, log entry 8). -/
def Obligations.ShlShiftsByTheWholeCount : Prop :=
  ∀ (rs1 rs2 rd : Reg) (s : State),
    let a := (s.readReg rs1).toNat
    let b := (s.readReg rs2).toNat
    EncodedBy .shl [.reg rs1, .reg rs2, .reg rd] (0xE#4 ++ bits4 rs1 ++ bits4 rs2 ++ bits4 rd) (.shl rs1 rs2 rd) ∧
    ∃ t, exec (.shl rs1 rs2 rd) s = .next t ∧
      RegisterResult s t rd (if b < 8 then s.readReg rs1 <<< b else 0)
        (if a = 0 then 1 else if a * 2 ^ b < 256 then 0 else 4)

/-- SHR (42_alu.md R157): the whole 8-bit count counts (the spec's decision D6, log entry 10). -/
def Obligations.ShrShiftsByTheWholeCount : Prop :=
  ∀ (rs1 rs2 rd : Reg) (s : State),
    let a := (s.readReg rs1).toNat
    let b := (s.readReg rs2).toNat
    EncodedBy .shr [.reg rs1, .reg rs2, .reg rd] (0xF#4 ++ bits4 rs1 ++ bits4 rs2 ++ bits4 rd) (.shr rs1 rs2 rd) ∧
    ∃ t, exec (.shr rs1 rs2 rd) s = .next t ∧
      RegisterResult s t rd (if b < 8 then s.readReg rs1 >>> b else 0) (if a < 2 ^ b then 1 else 0)

/-- SET (43_move.md R180; 90_conflicts.md C4; ignored bits by the spec's decision D7): copies the first register of the
text to the second. -/
def Obligations.SetCopiesTheFirstRegisterToTheSecond : Prop :=
  ∀ (rs1 rd : Reg) (s : State),
    EncodedBy .set [.reg rs1, .reg rd] (0x8#4 ++ bits4 rs1 ++ bits4 rd ++ 0#4) (.set rs1 rd) ∧
    (∀ u : BitVec 4, decode (0x8#4 ++ bits4 rs1 ++ bits4 rd ++ u) = .set rs1 rd) ∧
    ∃ t, exec (.set rs1 rd) s = .next t ∧
      RegisterResult s t rd (s.readReg rs1) (if s.readReg rs1 = 0 then 1 else 0)

/-- IST (43_move.md R181): the destination in bits [11:8], the immediate in bits [7:0], as the assembler emits them from
the immediate and then the register; no exception at run time; the assembler rejects a literal above 255 and the
destinations `zero` and `status`, whose execution is `DiscardedDestination…`; a label's immediate is its index. -/
def Obligations.IstSetsTheRegisterToTheImmediate : Prop :=
  (∀ (rd : Reg) (imm : Byte) (s : State), rd.writable = true →
    EncodedBy .ist [.imm imm, .reg rd] (0x9#4 ++ bits4 rd ++ imm) (.ist rd imm) ∧
    ∃ t, exec (.ist rd imm) s = .next t ∧ RegisterResult s t rd imm (if imm = 0 then 1 else 0)) ∧
  (∀ (v : Nat) (sp : Span), 255 < v → ∃ sp', parseArg .num ⟨.number v, sp⟩ = .error ⟨.immediateTooLarge, sp'⟩) ∧
  (∀ (rd : Reg) (sp : Span), rd.writable = false →
    ∃ sp', parseArg .writereg ⟨.identifier registerNames[rd], sp⟩ = .error ⟨.notWritable, sp'⟩) ∧
  (∀ (rd : Reg) (t : Token) (index : Nat), index ≤ 255 →
    decode (patchWord index (emitWord .ist [.label t, .reg rd])) = .ist rd (BitVec.ofNat 8 index))

/-- JMP (44_control.md R190; 90_conflicts.md C3; ignored bits by the spec's decision D7): the program counter takes the
register's value, whatever the length of the instruction memory; `status` is cleared, no register is written. -/
def Obligations.JmpJumpsToTheRegister : Prop :=
  ∀ (rs1 : Reg) (s : State),
    EncodedBy .jmp [.reg rs1] (0xA#4 ++ bits4 rs1 ++ 0#8) (.jmp rs1) ∧
    (∀ u : BitVec 8, decode (0xA#4 ++ bits4 rs1 ++ u) = .jmp rs1) ∧
    ∃ t, exec (.jmp rs1) s = .next t ∧ NoRegisterResult s t 0 (s.readReg rs1) ∧ SameMemory s t

/-- JIP (44_control.md R191; 90_conflicts.md C3; ignored bits by the spec's decision D7): the jump is taken exactly when
the whole 8-bit condition register is not zero; `status` is cleared either way. -/
def Obligations.JipJumpsWhenTheConditionIsNotZero : Prop :=
  ∀ (rs1 rs2 : Reg) (s : State),
    EncodedBy .jip [.reg rs1, .reg rs2] (0xB#4 ++ bits4 rs1 ++ bits4 rs2 ++ 0#4) (.jip rs1 rs2) ∧
    (∀ u : BitVec 4, decode (0xB#4 ++ bits4 rs1 ++ bits4 rs2 ++ u) = .jip rs1 rs2) ∧
    ∃ t, exec (.jip rs1 rs2) s = .next t ∧
      NoRegisterResult s t 0 (if s.readReg rs2 = 0 then s.pc + 1 else s.readReg rs1) ∧ SameMemory s t

/-- LOD (45_memory_access.md R200; ignored bits by the spec's decision D7): loads the byte at the address in the source
register, which is read before the destination is written. -/
def Obligations.LodLoadsTheAddressedByte : Prop :=
  ∀ (rs1 rd : Reg) (s : State),
    EncodedBy .lod [.reg rs1, .reg rd] (0xC#4 ++ bits4 rs1 ++ bits4 rd ++ 0#4) (.lod rs1 rd) ∧
    (∀ u : BitVec 4, decode (0xC#4 ++ bits4 rs1 ++ bits4 rd ++ u) = .lod rs1 rd) ∧
    ∃ t, exec (.lod rs1 rd) s = .next t ∧
      RegisterResult s t rd (s.readMem (s.readReg rs1)) (if s.readMem (s.readReg rs1) = 0 then 1 else 0)

/-- STO (45_memory_access.md R201; ignored bits by the spec's decision D7): the addressed byte takes the second register's
value, every other byte of memory reads as before, no register but `status` changes. -/
def Obligations.StoStoresOneByte : Prop :=
  ∀ (rs1 rs2 : Reg) (s : State),
    EncodedBy .sto [.reg rs1, .reg rs2] (0xD#4 ++ bits4 rs1 ++ bits4 rs2 ++ 0#4) (.sto rs1 rs2) ∧
    (∀ u : BitVec 4, decode (0xD#4 ++ bits4 rs1 ++ bits4 rs2 ++ u) = .sto rs1 rs2) ∧
    ∃ t, exec (.sto rs1 rs2) s = .next t ∧ NoRegisterResult s t 0 (s.pc + 1) ∧
      ∀ a : Byte, s.address rs1 = a →
        t.readMem a = s.readReg rs2 ∧ ∀ b : Byte, b ≠ a → t.readMem b = s.readMem b

/-- 40_step_and_flags.md R131 (derived there; the spec's decision D8, log entry 12): an instruction whose destination is
`zero` or `status` runs, leaves the flags it leaves with any other destination, and changes only `status` and the program
counter. -/
def Obligations.DiscardedDestinationLeavesOnlyTheFlags : Prop :=
  ∀ (i : Instr) (rd rd' : Reg) (s : State), i.dest.isSome = true → rd.writable = false →
    ∃ t t', exec (i.withDest rd) s = .next t ∧ exec (i.withDest rd') s = .next t' ∧
      NoRegisterResult s t (t'.readReg Reg.status) (s.pc + 1) ∧ SameMemory s t

/-! ## Rules about every instruction -/

/-- 40_step_and_flags.md R129: a taken jump sets the program counter to the register's value, every other instruction but
HALT to one more, HALT leaves it; a target past the end is accepted and makes the next step raise the error. -/
def Obligations.ProgramCounterUpdateOfEveryInstruction : Prop :=
  ∀ (i : Instr) (s : State), ∃ t, exec i s = .next t ∧
    t.pc = (match i with
      | .halt => s.pc
      | .jmp rs1 => s.readReg rs1
      | .jip rs1 rs2 => if s.readReg rs2 ≠ 0 then s.readReg rs1 else s.pc + 1
      | _ => s.pc + 1) ∧
    (i ≠ .halt → s.terminated = false → s.imem.length ≤ t.pc.toNat → step t = .fault .outOfBounds)

/-- 40_step_and_flags.md R132 (derived there) and R128: the status bytes each instruction can leave. Every instruction but
HALT also forces `zero`. The rows of NOT and SHL rest on the spec's decisions D5 and D6 (log entries 9, 10), the row of
HALT on 90_conflicts.md C6 (log entry 18), and every row with the destination `status` on D8 (log entry 12). -/
def Obligations.StatusBytesEachInstructionCanLeave : Prop :=
  ∀ (i : Instr) (s t : State), exec i s = .next t →
    (i ≠ .halt → t.regs[Reg.zero] = 0) ∧
    t.readReg Reg.status ∈ (match i with
      | .halt => [s.readReg Reg.status]
      | .nop => [0]
      | .jmp _ => [0]
      | .jip _ _ => [0]
      | .sto _ _ => [0]
      | .add _ _ _ => [0, 1, 4]
      | .shl _ _ _ => [0, 1, 4]
      | .sub _ _ _ => [0, 1, 6]
      | .not _ _ => [6]
      | _ => [0, 1])

/-- 10_state.md R22: nothing but the destination writes of executed instructions and reset changes r0 to r13, and every
one of them takes the same value as destination of the same instruction. -/
def Obligations.GeneralRegistersChangeOnlyAsDestinations : Prop :=
  (∀ (c : Command) (s t : State) (res : Result) (r : Reg), clock c s = .ok (t, res) → r.writable = true →
    t.readReg r ≠ s.readReg r →
    c = .reset ∨ (c = .step ∧ s.terminated = false ∧ ∃ w, s.imem[s.pc.toNat]? = some w ∧ (decode w).dest = some r)) ∧
  (∀ (i : Instr) (r r' : Reg) (s : State), i.dest.isSome = true → r.writable = true → r'.writable = true →
    ∃ t t', exec (i.withDest r) s = .next t ∧ exec (i.withDest r') s = .next t' ∧ t.readReg r = t'.readReg r')

/-- 10_state.md R29: a byte of data memory changes only by a STO that addresses it, or by reset. -/
def Obligations.DataMemoryChangesOnlyByStoAndReset : Prop :=
  ∀ (c : Command) (s t : State) (res : Result) (a : Byte), clock c s = .ok (t, res) → t.readMem a ≠ s.readMem a →
    (c = .reset ∧ t.readMem a = 0) ∨
    (c = .step ∧ s.terminated = false ∧ ∃ w rs1 rs2, s.imem[s.pc.toNat]? = some w ∧ decode w = .sto rs1 rs2 ∧
      s.readReg rs1 = a ∧ t.readMem a = s.readReg rs2)

/-- 20_memory.md R59 and 10_state.md R30: no command, and so no instruction and no reset, changes the instruction memory:
the program is the array the machine was constructed from, for its whole life. -/
def Obligations.InstructionMemoryNeverChanges : Prop :=
  ∀ (cs : List Command) (s t : State) (rs : List Result), clocks cs s = .ok (t, rs) → t.imem = s.imem

/-- 10_state.md R27 (the spec's decision D10, log entry 4): in a machine of at most 255 words the program counter never
wraps: as a natural number it is one more after an executed instruction that neither jumps nor halts. -/
def Obligations.ProgramCounterNeverWraps : Prop :=
  ∀ s t : State, step s = .next t → s.terminated = false →
    ∃ w, s.imem[s.pc.toNat]? = some w ∧
      match decode w with
      | .halt => t.pc.toNat = s.pc.toNat
      | .jmp rs1 => t.pc = s.readReg rs1
      | .jip rs1 rs2 => if s.readReg rs2 ≠ 0 then t.pc = s.readReg rs1 else t.pc.toNat = s.pc.toNat + 1
      | _ => t.pc.toNat = s.pc.toNat + 1

/-- 20_memory.md R56: a load returns the byte of the last store to its address, and another address the byte it had. -/
def Obligations.LoadAfterStoreReturnsTheStoredByte : Prop :=
  ∀ (rs1 rs2 ra rd : Reg) (s t : State), exec (.sto rs1 rs2) s = .next t → rd.writable = true →
    ∃ u, exec (.lod ra rd) t = .next u ∧
      (t.readReg ra = s.readReg rs1 → u.readReg rd = s.readReg rs2) ∧
      (t.readReg ra ≠ s.readReg rs1 → u.readReg rd = s.readMem (t.readReg ra))

/-- 30_encoding.md R99 and 44_control.md R191: `JIP rt status` after an instruction that classifies a result branches on
the flags that instruction left, here after ADD on a sum that is 0 or does not fit, and clears them. The ADD whose
destination is `status` or `zero` rests on the spec's decision D8, log entry 12. -/
def Obligations.BranchOnStatusTestsThePreviousInstruction : Prop :=
  ∀ (rs1 rs2 rd rt : Reg) (s t : State), exec (.add rs1 rs2 rd) s = .next t →
    ∃ u, exec (.jip rt Reg.status) t = .next u ∧ u.readReg Reg.status = 0 ∧
      u.pc = (if (s.readReg rs1).toNat + (s.readReg rs2).toNat = 0 ∨ 256 ≤ (s.readReg rs1).toNat + (s.readReg rs2).toNat
        then t.readReg rt else s.pc + 1 + 1)

/-! ## Flags and truncation -/

/-- 40_step_and_flags.md R125: the three flags by their definitions, every other bit 0, and the byte each range of raw
results gives. -/
def Obligations.ClassifierSetsTheThreeFlags : Prop :=
  ∀ raw : Int,
    ((classify raw).getLsbD 0 = true ↔ raw = 0) ∧
    ((classify raw).getLsbD 1 = true ↔ raw < 0) ∧
    ((classify raw).getLsbD 2 = true ↔ raw < 0 ∨ 256 ≤ raw) ∧
    (∀ k, 3 ≤ k → (classify raw).getLsbD k = false) ∧
    (0 ≤ raw → raw ≤ 255 → raw ≠ 0 → classify raw = 0) ∧
    (raw = 0 → classify raw = 1) ∧
    (256 ≤ raw → classify raw = 4) ∧
    (raw < 0 → classify raw = 6)

/-- 40_step_and_flags.md R124 (the spec's decision D4, log entry 8): the Euclidean remainder, which keeps a result that
fits and is the two's-complement low byte of any other. -/
def Obligations.TruncationIsTheRemainderModulo256 : Prop :=
  ∀ raw : Int,
    ((trunc8 raw).toNat : Int) = raw % 256 ∧
    (0 ≤ raw → raw ≤ 255 → ((trunc8 raw).toNat : Int) = raw) ∧
    trunc8 raw = BitVec.ofInt 8 raw ∧
    trunc8 (-1) = 255 ∧ trunc8 (-256) = 0 ∧ trunc8 300 = 44

/-! ## Reset, construction, invariants, runs -/

/-- 70_reset_and_hazards.md R230 with the values of 10_state.md R34: RESET is accepted in every state, zeroes every
register and memory cell, sets the program counter to 0 and clears the halt bit, keeps the instruction memory and nothing
else of the state before, and twice is as once. -/
def Obligations.ResetZeroesEverythingButTheInstructionMemory : Prop :=
  (∀ s : State, ∃ t, clock .reset s = .ok (t, .none) ∧ (∀ r : Reg, t.regs[r] = 0) ∧ (∀ a : Byte, t.readMem a = 0) ∧
    t.pc = 0 ∧ t.terminated = false ∧ t.imem = s.imem) ∧
  (∀ s s' : State, s.imem = s'.imem → clock .reset s = clock .reset s') ∧
  (∀ s : State, clocks [.reset, .reset] s = (clock .reset s).map fun p => (p.1, [.none, .none]))

/-- 10_state.md R30 and 70_reset_and_hazards.md R231 (the spec's decisions D9 and D16; log entries 3 and 13): an array of
at most 255 words makes a machine in the reset state with that array; a longer one is refused. -/
def Obligations.ConstructionGivesTheResetStateOrRefuses : Prop :=
  ∀ words : List Word,
    (words.length ≤ 255 → ∃ s, State.construct words = .next s ∧ s.imem = words ∧ (∀ r : Reg, s.regs[r] = 0) ∧
      (∀ a : Byte, s.readMem a = 0) ∧ s.pc = 0 ∧ s.terminated = false ∧ clock .reset s = .ok (s, .none)) ∧
    (255 < words.length → State.construct words = .refused .imemTooLong)

/-- The reset state meets the invariant (10_state.md R31, R34). -/
def Obligations.ResetStateMeetsTheInvariant : Prop := State.reset.Inv

/-- 10_state.md R31: from every state that meets the invariant, reachable or not, a step that answers a next state gives
one that meets it, and so does every command of the host. -/
def Obligations.EveryStepKeepsTheInvariant : Prop :=
  (∀ s t : State, s.Inv → step s = .next t → t.Inv) ∧
  (∀ (c : Command) (s t : State) (r : Result), s.Inv → clock c s = .ok (t, r) → t.Inv)

/-- 10_state.md R31 for every program and every sequence of commands: every reachable state meets the invariant and holds
the program it was constructed from; `zero` is 0, the upper five bits of `status` are 0, and no step is refused. -/
def Obligations.ReachableStatesMeetTheInvariant : Prop :=
  ∀ (words : List Word) (s : State), Reachable words s →
    s.Inv ∧ s.imem = words ∧ s.regs[Reg.zero] = 0 ∧ s.regs[Reg.status].toNat / 8 = 0 ∧
    ∀ c : Command, ∃ t r, clock c s = .ok (t, r)

/-- The canonical form makes equal memories equal data (the model's representation, log entry 6). -/
def Obligations.CanonicalMemoriesThatReadAlikeAreEqual : Prop :=
  ∀ m m' : Memory, m.wf = true → m'.wf = true → (∀ a : Byte, m.read a.toNat = m'.read a.toNat) → m = m'

/-- 70_reset_and_hazards.md R233 (the spec's decision D15): a run that has ended stays ended in the same state, a run that
has faulted stays faulted in the same state, however many more steps it is granted. -/
def Obligations.EndedAndFaultedRunsAreFinal : Prop :=
  ∀ (n k : Nat) (s t : State),
    (runFor n s = .ended t → runFor (n + k) s = .ended t ∧ t.terminated = true ∧ step t = .next t) ∧
    (∀ r, runFor n s = .faulted r t → runFor (n + k) s = .faulted r t ∧ step t = .fault r)

/-! ## The assembler -/

/-- 30_encoding.md R91: a register argument is an identifier that is one of the 16 names, case-sensitively; a destination
may not be `zero` or `status`; a source may be any; the register is encoded as its 4-bit index; a rejected argument ends
the first pass with its error. -/
def Obligations.RegisterArgumentsAreChecked : Prop :=
  (registerNames.toList = [['r', '0'], ['r', '1'], ['r', '2'], ['r', '3'], ['r', '4'], ['r', '5'], ['r', '6'],
    ['r', '7'], ['r', '8'], ['r', '9'], ['r', '1', '0'], ['r', '1', '1'], ['r', '1', '2'], ['r', '1', '3'],
    ['z', 'e', 'r', 'o'], ['s', 't', 'a', 't', 'u', 's']]) ∧
  (∀ (r : Reg) (sp : Span), parseArg .reg ⟨.identifier registerNames[r], sp⟩ = .ok (.reg r)) ∧
  (∀ (r : Reg) (sp : Span), r ≠ Reg.zero → r ≠ Reg.status →
    parseArg .writereg ⟨.identifier registerNames[r], sp⟩ = .ok (.reg r)) ∧
  (∀ (r : Reg) (sp : Span), r = Reg.zero ∨ r = Reg.status →
    ∃ sp', parseArg .writereg ⟨.identifier registerNames[r], sp⟩ = .error ⟨.notWritable, sp'⟩) ∧
  (∀ (k : ArgKind) (name : List Char) (sp : Span), k ≠ .num → name ∉ registerNames.toList →
    ∃ sp', parseArg k ⟨.identifier name, sp⟩ = .error ⟨.unknownRegister, sp'⟩) ∧
  (∀ (k : ArgKind) (t : Token), k ≠ .num → (∀ name, t.kind ≠ .identifier name) →
    ∃ sp', parseArg k t = .error ⟨.missingRegister, sp'⟩) ∧
  (∀ r : Reg, emitWord .jmp [.reg r] = 0xA#4 ++ bits4 r ++ 0#8) ∧
  (∀ (op : Opcode) (k : ArgKind) (ks : List ArgKind) (args : List Arg) (a : Assembly) (t : Token) (rest : List Token)
    (e : Asm.Error), parseArg k t = .error e → parseFrom (.argument op k ks args) a (t :: rest) = .error e)

/-- 30_encoding.md R92: an immediate argument is a number of at most 255, encoded as it is, or an identifier, which is
recorded in the PatchList with the index of its word and encoded as 0; a rejected argument ends the first pass with its
error. -/
def Obligations.ImmediateArgumentsAreChecked : Prop :=
  (∀ (v : Nat) (sp : Span), v ≤ 255 → parseArg .num ⟨.number v, sp⟩ = .ok (.imm (BitVec.ofNat 8 v))) ∧
  (∀ (v : Byte) (rd : Reg), emitWord .ist [.imm v, .reg rd] = 0x9#4 ++ bits4 rd ++ v) ∧
  (∀ (v : Nat) (sp : Span), 255 < v → ∃ sp', parseArg .num ⟨.number v, sp⟩ = .error ⟨.immediateTooLarge, sp'⟩) ∧
  (∀ (name : List Char) (sp : Span), parseArg .num ⟨.identifier name, sp⟩ = .ok (.label ⟨.identifier name, sp⟩)) ∧
  (∀ (a : Assembly) (t : Token) (rd : Reg),
    (a.emit .ist [.label t, .reg rd]).words = a.words ++ [(0x9#4 ++ bits4 rd ++ 0#8 : Word)] ∧
    (a.emit .ist [.label t, .reg rd]).patches = a.patches ++ [(a.words.length, t)]) ∧
  (∀ t : Token, (∀ v, t.kind ≠ .number v) → (∀ name, t.kind ≠ .identifier name) →
    ∃ sp', parseArg .num t = .error ⟨.missingNumberOrLabel, sp'⟩) ∧
  (∀ (op : Opcode) (ks : List ArgKind) (args : List Arg) (a : Assembly) (t : Token) (rest : List Token) (e : Asm.Error),
    parseArg .num t = .error e → parseFrom (.argument op .num ks args) a (t :: rest) = .error e)

/-- 30_encoding.md R88: the 16 mnemonics, written out from R75; the case of a mnemonic's letters does not matter, each of
the 26 letters standing for its capital and every other character for itself; a matched mnemonic starts a statement of its
opcode, whose arguments follow if it has any; an identifier that is no mnemonic is a fatal error, and so is a token that is
no identifier. -/
def Obligations.MnemonicsMatchWhateverTheirCase : Prop :=
  (mnemonic .nop = ['N', 'O', 'P'] ∧ mnemonic .halt = ['H', 'A', 'L', 'T'] ∧ mnemonic .add = ['A', 'D', 'D'] ∧
    mnemonic .sub = ['S', 'U', 'B'] ∧ mnemonic .and = ['A', 'N', 'D'] ∧ mnemonic .or = ['O', 'R'] ∧
    mnemonic .xor = ['X', 'O', 'R'] ∧ mnemonic .not = ['N', 'O', 'T'] ∧ mnemonic .set = ['S', 'E', 'T'] ∧
    mnemonic .ist = ['I', 'S', 'T'] ∧ mnemonic .jmp = ['J', 'M', 'P'] ∧ mnemonic .jip = ['J', 'I', 'P'] ∧
    mnemonic .lod = ['L', 'O', 'D'] ∧ mnemonic .sto = ['S', 'T', 'O'] ∧ mnemonic .shl = ['S', 'H', 'L'] ∧
    mnemonic .shr = ['S', 'H', 'R']) ∧
  (['a', 'b', 'c', 'd', 'e', 'f', 'g', 'h', 'i', 'j', 'k', 'l', 'm', 'n', 'o', 'p', 'q', 'r', 's', 't', 'u',
    'v', 'w', 'x', 'y', 'z'].map
    upper = ['A', 'B', 'C', 'D', 'E', 'F', 'G', 'H', 'I', 'J', 'K', 'L', 'M', 'N', 'O', 'P', 'Q', 'R', 'S', 'T', 'U',
    'V', 'W', 'X', 'Y', 'Z']) ∧
  (∀ c : Char, c ∉ ['a', 'b', 'c', 'd', 'e', 'f', 'g', 'h', 'i', 'j', 'k', 'l', 'm', 'n', 'o', 'p', 'q', 'r', 's', 't', 'u',
    'v', 'w', 'x', 'y', 'z'] →
    upper c = c) ∧
  (∀ (op : Opcode) (name : List Char), opcodeNamed name = some op ↔ name.map upper = mnemonic op) ∧
  (∀ (op : Opcode) (name : List Char) (sp : Span) (a : Assembly), name.map upper = mnemonic op →
    (formatArgs op.format = [] → parseMnemonic a ⟨.identifier name, sp⟩ = .ok (.statement, a.emit op [])) ∧
    (∀ (k : ArgKind) (ks : List ArgKind), formatArgs op.format = k :: ks →
      parseMnemonic a ⟨.identifier name, sp⟩ = .ok (.argument op k ks [], a))) ∧
  (∀ (name : List Char) (sp : Span) (a : Assembly), (∀ op, name.map upper ≠ mnemonic op) →
    ∃ sp', parseMnemonic a ⟨.identifier name, sp⟩ = .error ⟨.unknownMnemonic, sp'⟩) ∧
  (∀ (t : Token) (a : Assembly), (∀ name, t.kind ≠ .identifier name) →
    ∃ sp', parseMnemonic a t = .error ⟨.missingInstruction, sp'⟩)

/-- 30_encoding.md R95 and R80: a text that passes every earlier check assembles if it has at most 255 words, and is a
capacity error that names the count at the EndOfFile token, a zero-width token at the text's end, if it has 256 or more. -/
def Obligations.CapacityErrorNamesTheCountAtTheEnd : Prop :=
  ∀ (source : List Char) (tokens : List Token) (a : Assembly) (words : List Word),
    lex source = .ok tokens → parse tokens = .ok a → resolve a.labels a.patches a.words = .ok words →
    (words.length ≤ 255 → assemble source = .ok words) ∧
    (256 ≤ words.length → ∃ eof, tokens.getLast? = some eof ∧ eof.kind = .endOfFile ∧
      eof.span = ⟨byteLength source, byteLength source⟩ ∧
      assemble source = .error ⟨.programTooLong words.length, eof.span⟩)

/-- 30_encoding.md R94: resolving a label overwrites bits [7:0] with its index and leaves the opcode and any register
fields untouched. -/
def Obligations.LabelPatchLeavesOpcodeAndRegister : Prop :=
  ∀ (index : Nat) (w : Word),
    opField (patchWord index w) = opField w ∧ field1 (patchWord index w) = field1 w ∧
    immField (patchWord index w) = BitVec.ofNat 8 index

/-- 30_encoding.md R78, R91, R93 and R96 for every source text: what the assembler emits makes a machine, and every word
of it is the canonical word of an instruction whose destination is a general register. -/
def Obligations.AssembledProgramsAreCanonical : Prop :=
  ∀ (source : List Char) (words : List Word), assemble source = .ok words →
    (∃ s, State.construct words = .next s) ∧
    ∀ w ∈ words, (decode w).wellFormed = true ∧ encode (decode w) = w

/-- 30_encoding.md R80 to R96: every program of at most 255 well-formed instructions, written as source text in the syntax
of R89, assembles to the words of its instructions, which decode to them; a longer one is the capacity error. -/
def Obligations.AssemblerAndDecoderAgree : Prop :=
  ∀ is : List Instr, (∀ i ∈ is, i.wellFormed = true) →
    (is.length ≤ 255 → ∃ words, assemble (programText is) = .ok words ∧ words = is.map encode ∧
      words.map decode = is) ∧
    (256 ≤ is.length → ∃ sp, assemble (programText is) = .error ⟨.programTooLong is.length, sp⟩)

/-- 30_encoding.md R98, in the layout of log entry 19: a span on one line, the text `mid` between `pre` and `post` there,
is shown as the message, the line as it is, `^` under each character of `mid`, and "At line N"; a span from the text `mid`
at the end of one line through the lines `middle` to the text `mid'` at the start of another is shown with the part of each
line underlined, and "At lines N-M". (A span of width 0, `mid` empty in the first clause, or one that begins at a line's
newline, `mid` empty in the second, is the model's choice of entry 19.) The structured error of a source text is rendered
from its span and its message, and an ExecutionError as its message alone (60_exceptions.md R210). -/
def Obligations.ErrorsAreRenderedOnTheirLines : Prop :=
  (∀ (before after : List (List Char)) (pre mid post message : List Char),
    (∀ l ∈ before, '\n' ∉ l) → '\n' ∉ pre ++ mid ++ post →
    let head := before.flatMap (· ++ ['\n']) ++ pre
    render (head ++ mid ++ post ++ after.flatMap ('\n' :: ·)) ⟨byteLength head, byteLength (head ++ mid)⟩ message =
      ['\n'].intercalate [message, pre ++ mid ++ post, List.replicate pre.length ' ' ++ List.replicate mid.length '^',
        ['A', 't', ' ', 'l', 'i', 'n', 'e', ' '] ++ Nat.toDigits 10 (before.length + 1)]) ∧
  (∀ (before middle after : List (List Char)) (pre mid mid' post message : List Char),
    (∀ l ∈ before, '\n' ∉ l) → '\n' ∉ pre ++ mid → (∀ l ∈ middle, '\n' ∉ l) → '\n' ∉ mid' ++ post → mid' ≠ [] →
    let head := before.flatMap (· ++ ['\n']) ++ pre
    let shown := head ++ mid ++ ['\n'] ++ middle.flatMap (· ++ ['\n']) ++ mid'
    render (shown ++ post ++ after.flatMap ('\n' :: ·)) ⟨byteLength head, byteLength shown⟩ message =
      ['\n'].intercalate
        ([message, pre ++ mid, List.replicate pre.length ' ' ++ List.replicate mid.length '^'] ++
          middle.flatMap (fun l => [l, List.replicate l.length '^']) ++
          [mid' ++ post, List.replicate mid'.length '^',
            ['A', 't', ' ', 'l', 'i', 'n', 'e', 's', ' '] ++ Nat.toDigits 10 (before.length + 1) ++ ['-'] ++
              Nat.toDigits 10 (before.length + middle.length + 2)])) ∧
  (∀ (source : List Char) (e : Asm.Error), assemble source = .error e →
    assembleOrReport source = .error (report source e) ∧ (report source e).source = source ∧
    (Diagnostic.assembler (report source e)).render = render source e.span (Config.asmErrorText e.kind)) ∧
  (Diagnostic.execution .outOfBounds).render = ['o', 'u', 't', ' ', 'o', 'f', ' ', 'b', 'o', 'u', 'n', 'd', 's']

end
end

