-- ==== Sys2Proof/Laws/Decode.lean ====
section
/-! SUPPORT. The fields of packed words, as numbers. -/

namespace Sys2Proof

/-- A register number survives its four bits. -/
theorem toNat_bits4 (r : Fin 16) : (bits4 r).toNat = r.val := by
  simp only [bits4, BitVec.toNat_ofNat]
  omega

/-- Opcode numbers and opcodes correspond. -/
theorem ofNumber_number (op : Opcode) : Opcode.ofNumber op.number = op := by
  cases op <;> rfl

/-- A concatenation as a number. -/
theorem toNat_append_eq {m n : Nat} (x : BitVec m) (y : BitVec n) :
    (x ++ y).toNat = x.toNat * 2 ^ n + y.toNat := by
  rw [BitVec.toNat_append, ← Nat.shiftLeft_add_eq_or_of_lt y.isLt, Nat.shiftLeft_eq]

theorem toNat_packFields (op : Opcode) (f1 f2 f3 : BitVec 4) :
    (packFields op f1 f2 f3).toNat = op.number.val * 4096 + f1.toNat * 256 + f2.toNat * 16 + f3.toNat := by
  simp only [packFields, toNat_append_eq, toNat_bits4]
  omega

theorem toNat_packImm (op : Opcode) (f1 : BitVec 4) (imm : Byte) :
    (packImm op f1 imm).toNat = op.number.val * 4096 + f1.toNat * 256 + imm.toNat := by
  simp only [packImm, toNat_append_eq, toNat_bits4]
  omega

/-- A field of a word as a number. -/
theorem nibble_val (w : Word) (lo : Nat) : (nibble w lo).val = w.toNat / 2 ^ lo % 16 := by
  simp [nibble, BitVec.extractLsb'_toNat, Nat.shiftRight_eq_div_pow]

theorem immField_toNat (w : Word) : (immField w).toNat = w.toNat % 256 := by
  simp [immField, BitVec.extractLsb'_toNat]

theorem opField_packFields (op : Opcode) (f1 f2 f3 : BitVec 4) :
    opField (packFields op f1 f2 f3) = op.number := by
  apply Fin.ext
  rw [opField, nibble_val, toNat_packFields]
  omega

theorem field1_packFields (op : Opcode) (r : Fin 16) (f2 f3 : BitVec 4) :
    field1 (packFields op (bits4 r) f2 f3) = r := by
  apply Fin.ext
  rw [field1, nibble_val, toNat_packFields, toNat_bits4]
  omega

theorem field2_packFields (op : Opcode) (f1 : BitVec 4) (r : Fin 16) (f3 : BitVec 4) :
    field2 (packFields op f1 (bits4 r) f3) = r := by
  apply Fin.ext
  rw [field2, nibble_val, toNat_packFields, toNat_bits4]
  omega

theorem field3_packFields (op : Opcode) (f1 f2 : BitVec 4) (r : Fin 16) :
    field3 (packFields op f1 f2 (bits4 r)) = r := by
  apply Fin.ext
  rw [field3, nibble_val, toNat_packFields, toNat_bits4]
  omega

theorem opField_packImm (op : Opcode) (f1 : BitVec 4) (imm : Byte) : opField (packImm op f1 imm) = op.number := by
  apply Fin.ext
  rw [opField, nibble_val, toNat_packImm]
  omega

theorem field1_packImm (op : Opcode) (r : Fin 16) (imm : Byte) : field1 (packImm op (bits4 r) imm) = r := by
  apply Fin.ext
  rw [field1, nibble_val, toNat_packImm, toNat_bits4]
  omega

theorem immField_packImm (op : Opcode) (f1 : BitVec 4) (imm : Byte) : immField (packImm op f1 imm) = imm := by
  apply BitVec.eq_of_toNat_eq
  rw [immField_toNat, toNat_packImm]
  omega

end Sys2Proof
end

