-- ==== Sys2Proof/Laws/Assembler.lean ====
section
/-! SUPPORT. The emitted word of each format as its fields, and the lexer over runs of one token. -/

namespace Sys2Proof.Asm

theorem toNat_opcodeBits (op : Opcode) : (BitVec.ofNat 16 op.number.val <<< 12).toNat = op.number.val * 4096 := by
  have := op.number.isLt
  simp only [BitVec.toNat_shiftLeft, BitVec.toNat_ofNat, Nat.shiftLeft_eq]
  omega

/-- Or-ing a field into bits that are all 0 adds it. -/
theorem toNat_or_field {w : Word} {lo : Nat} (n : Nat) (hlo : 2 ^ lo ∣ w.toNat) (hn : n < 2 ^ lo) :
    w.toNat ||| n = w.toNat + n := by
  obtain ⟨k, hk⟩ := hlo
  rw [hk, Nat.mul_comm, ← Nat.shiftLeft_eq, Nat.shiftLeft_add_eq_or_of_lt hn]

theorem toNat_placeReg {w : Word} {hi : Nat} (r : Reg) (h3 : 3 ≤ hi) (h : hi ≤ 15) (hw : 2 ^ (hi + 1) ∣ w.toNat) :
    (w ||| (BitVec.ofNat 16 r.val <<< (hi - 3))).toNat = w.toNat + r.val * 2 ^ (hi - 3) := by
  have hr : r.val * 2 ^ (hi - 3) < 2 ^ (hi + 1) := by
    have : (2 : Nat) ^ (hi + 1) = 16 * 2 ^ (hi - 3) := by
      rw [show (16 : Nat) = 2 ^ 4 from rfl, ← pow_add]
      congr 1
      omega
    rw [this]
    exact Nat.mul_lt_mul_of_pos_right r.isLt (by positivity)
  have hle : (2 : Nat) ^ (hi + 1) ≤ 2 ^ 16 := Nat.pow_le_pow_right (by omega) (by omega)
  have h16 : r.val % 2 ^ 16 = r.val := Nat.mod_eq_of_lt (by omega)
  rw [BitVec.toNat_or, BitVec.toNat_shiftLeft, BitVec.toNat_ofNat, h16, Nat.shiftLeft_eq,
    Nat.mod_eq_of_lt (lt_of_lt_of_le hr hle), toNat_or_field _ hw hr]

/-- Format RRW (30_encoding.md R72). -/
theorem emitWord_rrw (op : Opcode) (a b c : Reg) :
    emitWord op [.reg a, .reg b, .reg c] = packFields op (bits4 a) (bits4 b) (bits4 c) := by
  have h0 := toNat_opcodeBits op
  have h1 := toNat_placeReg (w := BitVec.ofNat 16 op.number.val <<< 12) (hi := 11) a (by omega) (by omega) (by rw [h0]; omega)
  have h2 := toNat_placeReg (hi := 7) b (by omega) (by omega) (by rw [h1, h0]; omega)
  have h3 := toNat_placeReg (hi := 3) c (by omega) (by omega) (by rw [h2, h1, h0]; omega)
  apply BitVec.eq_of_toNat_eq
  rw [toNat_packFields, toNat_bits4, toNat_bits4, toNat_bits4]
  simp only [emitWord, placeArgs]
  rw [h3, h2, h1, h0]
  omega

/-- Formats RW and RR (30_encoding.md R72). -/
theorem emitWord_two (op : Opcode) (a b : Reg) :
    emitWord op [.reg a, .reg b] = packFields op (bits4 a) (bits4 b) 0#4 := by
  have h0 := toNat_opcodeBits op
  have h1 := toNat_placeReg (w := BitVec.ofNat 16 op.number.val <<< 12) (hi := 11) a (by omega) (by omega) (by rw [h0]; omega)
  have h2 := toNat_placeReg (hi := 7) b (by omega) (by omega) (by rw [h1, h0]; omega)
  apply BitVec.eq_of_toNat_eq
  rw [toNat_packFields, toNat_bits4, toNat_bits4]
  simp only [emitWord, placeArgs]
  rw [h2, h1, h0]
  simp

/-- Format R (30_encoding.md R72). -/
theorem emitWord_one (op : Opcode) (a : Reg) : emitWord op [.reg a] = packFields op (bits4 a) 0#4 0#4 := by
  have h0 := toNat_opcodeBits op
  have h1 := toNat_placeReg (w := BitVec.ofNat 16 op.number.val <<< 12) (hi := 11) a (by omega) (by omega) (by rw [h0]; omega)
  apply BitVec.eq_of_toNat_eq
  rw [toNat_packFields, toNat_bits4]
  simp only [emitWord, placeArgs]
  rw [h1, h0]
  simp

/-- The rest of an identifier, up to a blank (30_encoding.md R84). -/
theorem lexFrom_word (start off : Nat) (name cs rest : List Char) (c : Char)
    (hcs : ∀ d ∈ cs, (isLetter d || isDigit d) = true) (hc : (isLetter c || isDigit c) = false)
    (hb : isBlank c = true) :
    lexFrom (.word start name) off (cs ++ c :: rest) =
      (lexFrom .idle (off + byteLength cs + c.utf8Size) rest).map
        fun us => ⟨.identifier (name ++ cs), ⟨start, off + byteLength cs⟩⟩ :: us := by
  induction cs generalizing name off with
  | nil =>
    simp only [List.nil_append, lexFrom, lexChar, hc, Bool.false_eq_true, if_false, lexIdle, hb, if_true, withTokens,
      byteLength, Nat.add_zero, List.append_nil]
    cases lexFrom .idle (off + c.utf8Size) rest <;> rfl
  | cons d ds ih =>
    simp only [List.mem_cons, forall_eq_or_imp] at hcs
    rw [List.cons_append, lexFrom]
    simp only [lexChar, hcs.1, if_true]
    rw [ih _ _ hcs.2]
    simp only [byteLength, List.append_assoc, List.singleton_append, List.nil_append, ← Nat.add_assoc]
    cases lexFrom .idle (off + d.utf8Size + byteLength ds + c.utf8Size) rest <;> rfl

end Sys2Proof.Asm
end

