-- ==== Sys2Proof/Laws/State.lean ====
section
/-! SUPPORT. Each field after each update of a state, by rfl, and registers after a register write. -/

namespace Sys2Proof.Machine

section Updates
variable (s : State) (r : Reg) (v a flags : Byte) (target : Index)

@[simp] theorem State.writeReg_imem : (s.writeReg r v).imem = s.imem := rfl
@[simp] theorem State.writeReg_mem : (s.writeReg r v).mem = s.mem := rfl
@[simp] theorem State.writeReg_regs : (s.writeReg r v).regs = s.regs.set r v := rfl
@[simp] theorem State.writeReg_pc : (s.writeReg r v).pc = s.pc := rfl
@[simp] theorem State.writeReg_terminated : (s.writeReg r v).terminated = s.terminated := rfl

@[simp] theorem State.setPc_imem : (s.setPc target).imem = s.imem := rfl
@[simp] theorem State.setPc_mem : (s.setPc target).mem = s.mem := rfl
@[simp] theorem State.setPc_regs : (s.setPc target).regs = s.regs := rfl
@[simp] theorem State.setPc_pc : (s.setPc target).pc = target := rfl
@[simp] theorem State.setPc_terminated : (s.setPc target).terminated = s.terminated := rfl

@[simp] theorem State.writeMem_imem : (s.writeMem a v).imem = s.imem := rfl
@[simp] theorem State.writeMem_mem : (s.writeMem a v).mem = s.mem.write a.toNat v := rfl
@[simp] theorem State.writeMem_regs : (s.writeMem a v).regs = s.regs := rfl
@[simp] theorem State.writeMem_pc : (s.writeMem a v).pc = s.pc := rfl
@[simp] theorem State.writeMem_terminated : (s.writeMem a v).terminated = s.terminated := rfl

@[simp] theorem State.endStep_imem : (s.endStep flags target).imem = s.imem := rfl
@[simp] theorem State.endStep_mem : (s.endStep flags target).mem = s.mem := rfl
@[simp] theorem State.endStep_pc : (s.endStep flags target).pc = target := rfl
@[simp] theorem State.endStep_terminated : (s.endStep flags target).terminated = s.terminated := rfl

@[simp] theorem State.resetKeepingImem_imem : s.resetKeepingImem.imem = s.imem := rfl
@[simp] theorem State.resetKeepingImem_mem : s.resetKeepingImem.mem = [] := rfl
@[simp] theorem State.resetKeepingImem_regs : s.resetKeepingImem.regs = Vector.replicate 16 0 := rfl
@[simp] theorem State.resetKeepingImem_pc : s.resetKeepingImem.pc = 0 := rfl
@[simp] theorem State.resetKeepingImem_terminated : s.resetKeepingImem.terminated = false := rfl

end Updates

/-- Register `zero` reads 0 in every state (10_state.md R23). -/
@[simp] theorem State.readReg_zero (s : State) : s.readReg Reg.zero = 0 := rfl

theorem State.readReg_eq_cell (s : State) {r : Reg} (h : r ≠ Reg.zero) : s.readReg r = s.regs[r] := by
  simp [State.readReg, h]

/-- A stored register cell after a register write. -/
theorem State.writeReg_cell (s : State) (r q : Reg) (v : Byte) :
    (s.writeReg r v).regs[q] = if r = q then v else s.regs[q] := by
  simp [State.writeReg, Vector.getElem_set, Fin.ext_iff]

/-- A register after a register write, `zero` being hard-wired. -/
theorem State.readReg_writeReg (s : State) (r q : Reg) (v : Byte) :
    (s.writeReg r v).readReg q = if q = Reg.zero then 0 else if r = q then v else s.readReg q := by
  by_cases h : q = Reg.zero
  · simp [h]
  · rw [State.readReg_eq_cell _ h, State.readReg_eq_cell _ h, State.writeReg_cell]
    simp [h]

@[simp] theorem State.readReg_setPc (s : State) (r : Reg) (t : Index) : (s.setPc t).readReg r = s.readReg r := rfl

@[simp] theorem State.readReg_writeMem (s : State) (r : Reg) (a v : Byte) :
    (s.writeMem a v).readReg r = s.readReg r := rfl

@[simp] theorem State.readMem_writeReg (s : State) (r : Reg) (v a : Byte) :
    (s.writeReg r v).readMem a = s.readMem a := rfl

@[simp] theorem State.readMem_endStep (s : State) (a flags : Byte) (t : Index) :
    (s.endStep flags t).readMem a = s.readMem a := rfl

end Sys2Proof.Machine
end

