-- ==== Sys2Proof/Laws/Flags.lean ====
section
/-! SUPPORT. The classifier's byte by ranges of the raw result, and the truncation of natural results. -/

namespace Sys2Proof.Machine

theorem classify_zero : classify 0 = 1 := by decide

theorem classify_in_range {raw : Int} (h : 0 < raw) (h' : raw < 256) : classify raw = 0 := by
  have hz : flagZ raw = false := by simp [flagZ]; omega
  have hn : flagN raw = false := by simp [flagN]; omega
  have hv : flagV raw = false := by simp [flagV]; omega
  rw [classify, hz, hn, hv]; decide

theorem classify_above {raw : Int} (h : 256 ≤ raw) : classify raw = 4 := by
  have hz : flagZ raw = false := by simp [flagZ]; omega
  have hn : flagN raw = false := by simp [flagN]; omega
  have hv : flagV raw = true := by simp [flagV]; omega
  rw [classify, hz, hn, hv]; decide

theorem classify_negative {raw : Int} (h : raw < 0) : classify raw = 6 := by
  have hz : flagZ raw = false := by simp [flagZ]; omega
  have hn : flagN raw = true := by simp [flagN]; omega
  have hv : flagV raw = true := by simp [flagV]; omega
  rw [classify, hz, hn, hv]; decide

/-- The byte stored for a raw result that is a natural number. -/
theorem trunc8_natCast (n : Nat) : trunc8 (n : Int) = BitVec.ofNat 8 n := by
  apply BitVec.eq_of_toNat_eq
  simp only [trunc8, BitVec.toNat_ofNat]
  omega

/-- A byte is stored as itself. -/
theorem trunc8_toNat (v : Byte) : trunc8 (v.toNat : Int) = v := by
  rw [trunc8_natCast, BitVec.ofNat_toNat, BitVec.setWidth_eq]

end Sys2Proof.Machine
end

