-- ==== Sys2Proof/Laws/Memory.lean ====
section
/-! SUPPORT. The data memory: a read after a write, and the canonical form kept by every operation. -/

namespace Sys2Proof.Machine

@[simp] theorem Memory.read_nil (a : Nat) : Memory.read [] a = Config.resetByte := rfl

/-- The empty list is in canonical form: reset has it. -/
@[simp] theorem Memory.wf_nil : Memory.wf [] = true := rfl

theorem Memory.erase_cons (k a : Nat) (x : Byte) (rest : Memory) :
    Memory.erase ((k, x) :: rest) a = if k = a then rest.erase a else (k, x) :: rest.erase a := by
  by_cases h : k = a <;> simp [Memory.erase, h]

theorem Memory.read_erase (m : Memory) (a b : Nat) :
    (m.erase a).read b = if a = b then Config.resetByte else m.read b := by
  induction m with
  | nil => simp [Memory.erase]
  | cons p rest ih =>
    obtain ⟨k, x⟩ := p
    rw [Memory.erase_cons]
    by_cases hk : k = a
    · subst hk
      rw [if_pos rfl, ih]
      by_cases hb : k = b <;> simp [hb, Memory.read]
    · by_cases hb : k = b
      · subst hb
        simp [hk, Ne.symm hk, Memory.read]
      · simp [hk, hb, ih, Memory.read]

theorem Memory.read_insert {m : Memory} {a : Nat} (b : Nat) (v : Byte) (h : ∀ p ∈ m, p.1 ≠ a) :
    (m.insert a v).read b = if a = b then v else m.read b := by
  induction m with
  | nil => simp [Memory.insert, Memory.read]
  | cons p rest ih =>
    obtain ⟨k, x⟩ := p
    simp only [List.mem_cons, forall_eq_or_imp] at h
    simp only [Memory.insert]
    split
    · simp [Memory.read]
    · simp only [Memory.read, ih h.2]
      by_cases hk : k = b
      · subst hk
        simp [Ne.symm h.1]
      · simp [hk]

theorem Memory.erase_keys (m : Memory) (a : Nat) : ∀ p ∈ m.erase a, p.1 ≠ a := by
  simp [Memory.erase]

/-- A write changes the cell it names and no other (20_memory.md R53). -/
theorem Memory.read_write (m : Memory) (a b : Nat) (v : Byte) :
    (m.write a v).read b = if a = b then v else m.read b := by
  unfold Memory.write
  split
  · rename_i hv
    rw [Memory.read_erase, hv]
  · rw [Memory.read_insert _ _ (m.erase_keys a), Memory.read_erase]
    split <;> rfl

/-- A lower bound on the listed addresses may be lowered. -/
theorem Memory.risingFrom_mono {m : Memory} {lo lo' : Nat} (hle : lo' ≤ lo) (h : Memory.risingFrom lo m = true) :
    Memory.risingFrom lo' m = true := by
  cases m with
  | nil => rfl
  | cons p rest =>
    simp only [Memory.risingFrom, Bool.and_eq_true, decide_eq_true_eq] at h ⊢
    exact ⟨⟨⟨by omega, h.1.1.2⟩, h.1.2⟩, h.2⟩

theorem Memory.risingFrom_erase {m : Memory} {lo : Nat} (a : Nat) (h : Memory.risingFrom lo m = true) :
    Memory.risingFrom lo (m.erase a) = true := by
  induction m generalizing lo with
  | nil => rfl
  | cons p rest ih =>
    obtain ⟨k, x⟩ := p
    simp only [Memory.risingFrom, Bool.and_eq_true, decide_eq_true_eq] at h
    rw [Memory.erase_cons]
    by_cases hk : k = a
    · simpa [hk] using Memory.risingFrom_mono (by omega) (ih h.2)
    · simp [hk, Memory.risingFrom, h, ih h.2]

theorem Memory.risingFrom_insert {m : Memory} {lo a : Nat} {v : Byte} (hlo : lo ≤ a) (ha : a < 256)
    (hv : v ≠ Config.resetByte) (hkeys : ∀ p ∈ m, p.1 ≠ a) (h : Memory.risingFrom lo m = true) :
    Memory.risingFrom lo (m.insert a v) = true := by
  induction m generalizing lo with
  | nil => simp [Memory.insert, Memory.risingFrom, hlo, ha, hv]
  | cons p rest ih =>
    obtain ⟨k, x⟩ := p
    simp only [List.mem_cons, forall_eq_or_imp] at hkeys
    simp only [Memory.risingFrom, Bool.and_eq_true, decide_eq_true_eq] at h
    simp only [Memory.insert]
    split
    · rename_i hak
      simp only [Memory.risingFrom, Bool.and_eq_true, decide_eq_true_eq]
      exact ⟨⟨⟨hlo, ha⟩, hv⟩, ⟨⟨by omega, h.1.1.2⟩, h.1.2⟩, h.2⟩
    · rename_i hak
      simp only [Memory.risingFrom, Bool.and_eq_true, decide_eq_true_eq]
      exact ⟨h.1, ih (by have := hkeys.1; omega) hkeys.2 h.2⟩

/-- Every write to one of the 256 cells keeps the canonical form. -/
theorem Memory.wf_write {m : Memory} {a : Nat} (v : Byte) (ha : a < 256) (h : m.wf = true) :
    (m.write a v).wf = true := by
  unfold Memory.write
  split
  · exact Memory.risingFrom_erase a h
  · exact Memory.risingFrom_insert (Nat.zero_le a) ha ‹_› (m.erase_keys a) (Memory.risingFrom_erase a h)

/-- A byte after a store. -/
theorem State.readMem_writeMem (s : State) (a b v : Byte) :
    (s.writeMem a v).readMem b = if a = b then v else s.readMem b := by
  simp [State.readMem, State.writeMem, Memory.read_write, BitVec.toNat_inj]

/-- A store keeps the canonical form. -/
theorem State.writeMem_wf {s : State} (a v : Byte) (h : s.mem.wf = true) : (s.writeMem a v).mem.wf = true :=
  Memory.wf_write v a.isLt h

end Sys2Proof.Machine
end

