-- ==== Sys2Proof/Laws/Ops.lean ====
section
/-! SUPPORT. Everything the end of a step does to the registers, stated once for the shared operations. -/

namespace Sys2Proof.Machine

/-- An instruction memory fits when it has at most 255 words. -/
theorem programFits_iff (words : List Word) : programFits words = true ↔ words.length ≤ 255 := by
  rw [programFits, decide_eq_true_eq, Config.maxWords]

/-- A stored register cell at the end of a step. -/
theorem State.endStep_cell (s : State) (flags : Byte) (target : Index) (q : Reg) :
    (s.endStep flags target).regs[q] =
      if q = Reg.status then flags else if q = Reg.zero then 0 else s.regs[q] := by
  simp only [State.endStep, State.setPc_regs, State.writeReg_cell]
  by_cases h : q = Reg.status
  · simp [h]
  · by_cases h' : q = Reg.zero <;> simp [h, h', Ne.symm h, eq_comm]

/-- A register at the end of a step. -/
theorem State.readReg_endStep (s : State) (flags : Byte) (target : Index) (q : Reg) :
    (s.endStep flags target).readReg q =
      if q = Reg.status then flags else if q = Reg.zero then 0 else s.readReg q := by
  by_cases h : q = Reg.zero
  · subst h
    rfl
  · rw [State.readReg_eq_cell _ h, State.readReg_eq_cell _ h, State.endStep_cell]

/-- A register after an instruction that writes one. -/
theorem State.readReg_retireResult (s : State) (rd q : Reg) (raw : Int) :
    (s.retireResult rd raw).readReg q =
      if q = Reg.status then classify raw
      else if q = Reg.zero then 0
      else if rd = q then trunc8 raw else s.readReg q := by
  rw [State.retireResult, State.readReg_endStep, State.readReg_writeReg]
  by_cases h : q = Reg.zero
  · rw [if_pos h, if_pos h]
  · rw [if_neg h, if_neg h]

@[simp] theorem State.retireResult_imem (s : State) (rd : Reg) (raw : Int) : (s.retireResult rd raw).imem = s.imem := rfl
@[simp] theorem State.retireResult_mem (s : State) (rd : Reg) (raw : Int) : (s.retireResult rd raw).mem = s.mem := rfl
@[simp] theorem State.retireResult_pc (s : State) (rd : Reg) (raw : Int) : (s.retireResult rd raw).pc = s.pc + 1 := rfl
@[simp] theorem State.retireResult_terminated (s : State) (rd : Reg) (raw : Int) :
    (s.retireResult rd raw).terminated = s.terminated := rfl

theorem State.retireResult_zero (s : State) (rd : Reg) (raw : Int) :
    (s.retireResult rd raw).regs[Reg.zero] = 0 := by
  rw [State.retireResult, State.endStep_cell]
  rfl

end Sys2Proof.Machine
end

