-- ==== Sys2Proof/Laws/PerInstr.lean ====
section
/-! SUPPORT. Statements about every instruction as syntax, one lemma per constructor. -/

namespace Sys2Proof.Laws.OpcodeField

/-- The word of an instruction has its opcode's number in bits [15:12] (30_encoding.md R71, R75). -/
def Statement (i : Instr) : Prop := opField (encode i) = i.opcode.number

theorem nop : Statement .nop := opField_packFields _ _ _ _
theorem halt : Statement .halt := opField_packFields _ _ _ _
theorem add (rs1 rs2 rd : Reg) : Statement (.add rs1 rs2 rd) := opField_packFields _ _ _ _
theorem sub (rs1 rs2 rd : Reg) : Statement (.sub rs1 rs2 rd) := opField_packFields _ _ _ _
theorem and (rs1 rs2 rd : Reg) : Statement (.and rs1 rs2 rd) := opField_packFields _ _ _ _
theorem or (rs1 rs2 rd : Reg) : Statement (.or rs1 rs2 rd) := opField_packFields _ _ _ _
theorem xor (rs1 rs2 rd : Reg) : Statement (.xor rs1 rs2 rd) := opField_packFields _ _ _ _
theorem not (rs1 rd : Reg) : Statement (.not rs1 rd) := opField_packFields _ _ _ _
theorem set (rs1 rd : Reg) : Statement (.set rs1 rd) := opField_packFields _ _ _ _
theorem ist (rd : Reg) (imm : Byte) : Statement (.ist rd imm) := opField_packImm _ _ _
theorem jmp (rs1 : Reg) : Statement (.jmp rs1) := opField_packFields _ _ _ _
theorem jip (rs1 rs2 : Reg) : Statement (.jip rs1 rs2) := opField_packFields _ _ _ _
theorem lod (rs1 rd : Reg) : Statement (.lod rs1 rd) := opField_packFields _ _ _ _
theorem sto (rs1 rs2 : Reg) : Statement (.sto rs1 rs2) := opField_packFields _ _ _ _
theorem shl (rs1 rs2 rd : Reg) : Statement (.shl rs1 rs2 rd) := opField_packFields _ _ _ _
theorem shr (rs1 rs2 rd : Reg) : Statement (.shr rs1 rs2 rd) := opField_packFields _ _ _ _

end Sys2Proof.Laws.OpcodeField
end

