-- ==== Sys2Proof/Laws/Render.lean ====
section
/-! SUPPORT. The lines of a text, and the underline of a line in three parts (30_encoding.md R98). -/

namespace Sys2Proof.Asm

@[simp] theorem byteLength_append (a b : List Char) : byteLength (a ++ b) = byteLength a + byteLength b := by
  induction a with
  | nil => simp [byteLength]
  | cons c cs ih => simp [byteLength, ih, Nat.add_assoc]

/-- A text without a newline is one line. -/
theorem linesFrom_last (n start off : Nat) (text t : List Char) (ht : '\n' ∉ t) :
    linesFrom n start off text t = [⟨n, text ++ t, ⟨start, off + byteLength t⟩⟩] := by
  induction t generalizing off text with
  | nil => simp [linesFrom, byteLength]
  | cons c cs ih =>
    simp only [List.mem_cons, not_or] at ht
    rw [linesFrom, if_neg (Ne.symm ht.1), ih _ _ ht.2]
    simp [byteLength, Nat.add_assoc]

/-- A line ends at its newline, and the next begins after it. -/
theorem linesFrom_line (n start off : Nat) (text t cs : List Char) (ht : '\n' ∉ t) :
    linesFrom n start off text (t ++ '\n' :: cs) =
      ⟨n, text ++ t, ⟨start, off + byteLength t⟩⟩ ::
        linesFrom (n + 1) (off + byteLength t + 1) (off + byteLength t + 1) [] cs := by
  induction t generalizing off text with
  | nil => simp [linesFrom, byteLength]
  | cons c ds ih =>
    simp only [List.mem_cons, not_or] at ht
    rw [List.cons_append, linesFrom, if_neg (Ne.symm ht.1), ih _ _ ht.2]
    simp [byteLength, Nat.add_assoc]

/-- No line begins before the offset its text is read from. -/
theorem linesFrom_start_le {n start off : Nat} {text cs : List Char} {l : Line} (h : start ≤ off)
    (hl : l ∈ linesFrom n start off text cs) : start ≤ l.span.start := by
  induction cs generalizing n start off text with
  | nil =>
    simp only [linesFrom, List.mem_singleton] at hl
    simp [hl]
  | cons c cs ih =>
    rw [linesFrom] at hl
    split at hl
    · rcases List.mem_cons.1 hl with rfl | hl
      · exact Nat.le_refl _
      · exact Nat.le_trans (Nat.le_succ_of_le h) (ih (Nat.le_refl _) hl)
    · exact ih (Nat.le_trans h (Nat.le_add_right _ _)) hl

/-- Before the span the underline has spaces. -/
theorem underlineFrom_before (sp : Span) (off : Nat) (t rest : List Char) (h : off + byteLength t ≤ sp.start)
    (hsp : sp.start ≤ sp.stop) :
    underlineFrom sp off (t ++ rest) = List.replicate t.length ' ' ++ underlineFrom sp (off + byteLength t) rest := by
  induction t generalizing off with
  | nil => simp [byteLength]
  | cons c cs ih =>
    have hc := Char.utf8Size_pos c
    simp only [byteLength] at h
    rw [List.cons_append, underlineFrom, if_neg (by omega), if_neg (by omega), ih _ (by omega)]
    simp [byteLength, List.replicate_succ, Nat.add_assoc]

/-- In the span the underline has `^`. -/
theorem underlineFrom_within (sp : Span) (off : Nat) (t rest : List Char) (h : sp.start ≤ off)
    (hsp : off + byteLength t ≤ sp.stop) :
    underlineFrom sp off (t ++ rest) = List.replicate t.length '^' ++ underlineFrom sp (off + byteLength t) rest := by
  induction t generalizing off with
  | nil => simp [byteLength]
  | cons c cs ih =>
    have hc := Char.utf8Size_pos c
    simp only [byteLength] at hsp
    rw [List.cons_append, underlineFrom, if_neg (by omega), if_pos h, ih _ (by omega) (by omega)]
    simp [byteLength, List.replicate_succ, Nat.add_assoc]

/-- After the span the underline has nothing. -/
theorem underlineFrom_after (sp : Span) (off : Nat) (t : List Char) (h : sp.stop ≤ off) :
    underlineFrom sp off t = [] := by
  cases t with
  | nil => rfl
  | cons c cs => rw [underlineFrom, if_pos h]

end Sys2Proof.Asm
end

