-- ==== Sys2Proof/Laws/Step.lean ====
section
/-! SUPPORT. What a step can do, stated once: provers cite these instead of unfolding `step` and `exec`. -/

namespace Sys2Proof.Machine

/-- What a step that answers a next state did: nothing, in a terminated machine; else it executed the word it fetched. -/
theorem step_cases {s t : State} (h : step s = .next t) :
    (s.terminated = true ∧ t = s) ∨
      (s.terminated = false ∧ s.imem.length ≤ Config.maxWords ∧
        ∃ w, s.imem[s.pc.toNat]? = some w ∧ exec (decode w) s = .next t) := by
  unfold step at h
  split at h
  · exact .inl ⟨‹_›, by simpa using h.symm⟩
  split at h
  · exact nomatch h
  split at h
  · exact nomatch h
  · exact .inr ⟨by simpa using ‹¬s.terminated = true›, by omega, _, ‹_›, h⟩

/-- What an executed instruction did: HALT set the halt bit; every other instruction wrote a register, a memory cell or
neither and then ended the step. -/
theorem exec_cases {i : Instr} {s t : State} (h : exec i s = .next t) :
    (i = .halt ∧ t = { s with terminated := true }) ∨
      (∃ rd raw, i.dest = some rd ∧ t = s.retireResult rd raw) ∨
      (∃ rs1 rs2, i = .sto rs1 rs2 ∧ t = (s.writeMem (s.address rs1) (s.readReg rs2)).endStep clearedFlags s.nextPc) ∨
      (i.dest = none ∧ i ≠ .halt ∧ (∀ rs1 rs2, i ≠ .sto rs1 rs2) ∧ ∃ target, t = s.endStep clearedFlags target) := by
  cases i <;>
    simp only [exec, execNop, execHalt, execAdd, execSub, execAnd, execOr, execXor, execNot, execSet, execIst, execJmp,
      execJip, execLod, execSto, execShl, execShr, Host.Outcome.next.injEq] at h <;>
    subst h
  case halt => exact .inl ⟨rfl, rfl⟩
  case sto => exact .inr (.inr (.inl ⟨_, _, rfl, rfl⟩))
  case nop => exact .inr (.inr (.inr ⟨rfl, nofun, nofun, _, rfl⟩))
  case jmp => exact .inr (.inr (.inr ⟨rfl, nofun, nofun, _, rfl⟩))
  case jip => exact .inr (.inr (.inr ⟨rfl, nofun, nofun, _, rfl⟩))
  all_goals exact .inr (.inl ⟨_, _, rfl, rfl⟩)

end Sys2Proof.Machine
end

