-- ==== Sys2Proof/Laws/Results.lean ====
section
/-! SUPPORT. The two ways an executed instruction ends, in the terms of the claims. -/

namespace Sys2Proof.Machine

/-- Writing the truncation of a raw result ends in a register result. -/
theorem State.retireResult_result {s : State} {rd : Reg} {raw : Int} {v flags : Byte} (hv : trunc8 raw = v)
    (hf : classify raw = flags) : RegisterResult s (s.retireResult rd raw) rd v flags where
  written h h' := by
    rw [State.readReg_retireResult, if_neg h', if_neg h, if_pos rfl, hv]
  others r h h' h'' := by
    rw [State.readReg_retireResult, if_neg h'', if_neg h', if_neg (Ne.symm h)]
  zero := State.retireResult_zero _ _ _
  status := by rw [State.readReg_retireResult, if_pos rfl, hf]
  pc := rfl
  memory _ := rfl
  imem := rfl
  terminated := rfl

/-- Ending a step whose own write was not to a register. -/
theorem State.endStep_result {s u : State} (flags : Byte) (target : Index) (hr : u.regs = s.regs)
    (hi : u.imem = s.imem) (ht : u.terminated = s.terminated) :
    NoRegisterResult s (u.endStep flags target) flags target where
  others r h h' := by
    rw [State.readReg_endStep, if_neg h', if_neg h, State.readReg_eq_cell _ h, State.readReg_eq_cell _ h, hr]
  zero := by rw [State.endStep_cell]; rfl
  status := by rw [State.readReg_endStep, if_pos rfl]
  pc := rfl
  imem := by rw [State.endStep_imem, hi]
  terminated := by rw [State.endStep_terminated, ht]

/-- The flags of a raw result that is a byte: Z alone can be set. -/
theorem classify_byte (v : Byte) : classify (v.toNat : Int) = if v = 0 then 1 else 0 := by
  split
  · rename_i h
    rw [h]
    exact classify_zero
  · rename_i h
    have : v.toNat ≠ 0 := fun h' => h (BitVec.eq_of_toNat_eq h')
    exact classify_in_range (by omega) (by omega)

/-- Every byte of the classifier is legal. -/
theorem classify_legal (raw : Int) : legalStatus (classify raw) = true := by
  rcases lt_trichotomy raw 0 with h | h | h
  · rw [classify_negative h]; decide
  · rw [h, classify_zero]; decide
  · by_cases h' : raw < 256
    · rw [classify_in_range h h']; decide
    · rw [classify_above (by omega)]; decide

end Sys2Proof.Machine
end

