-- ==== Sys2Proof/Tests/Slice0.lean ====
section
/-! SUPPORT. The model's own tests: decoded words, the well-formedness checks, one-step examples, and for every statement
with hypotheses a state and operands that meet them. Expected values are those of 95_test_vectors.md unless a comment
names another source. -/

namespace Sys2Proof.Tests

open Sys2Proof.Machine Sys2Proof.Asm

/-- A machine with a program, a program counter, registers to set and a memory. -/
def machine (words : List Word) (pc : Index) (regs : List (Reg × Byte)) (mem : Memory) : State :=
  regs.foldl (fun s p => s.writeReg p.1 p.2) { State.reset with imem := words, pc := pc, mem := mem }

/-- The next state of an outcome, if it has one. -/
def nextOf : Host.Outcome State Fault Refusal → Option State
  | .next t => some t
  | .fault _ => none
  | .refused _ => none

/-- A register, `status` and the program counter after one step. -/
def look (r : Reg) (s : State) : Option (Byte × Byte × Index) :=
  (nextOf (step s)).map fun t => (t.readReg r, t.readReg Reg.status, t.pc)

/-! ## Decoding: words written out from the patterns of 30_encoding.md R75 -/

theorem test_decode_nop : decode 0b0000000000000000#16 = .nop := by decide
theorem test_decode_halt : decode 0b0001000000000000#16 = .halt := by decide
theorem test_decode_add : decode 0b0010000100100011#16 = .add 1 2 3 := by decide
theorem test_decode_sub : decode 0b0011110111100000#16 = .sub 13 14 0 := by decide
theorem test_decode_and : decode 0b0100010001010110#16 = .and 4 5 6 := by decide
theorem test_decode_or : decode 0b0101111100000001#16 = .or 15 0 1 := by decide
theorem test_decode_xor : decode 0b0110011110001001#16 = .xor 7 8 9 := by decide
theorem test_decode_not : decode 0b0111101010110000#16 = .not 10 11 := by decide
theorem test_decode_set : decode 0b1000110011010000#16 = .set 12 13 := by decide
theorem test_decode_ist : decode 0b1001010110101011#16 = .ist 5 171 := by decide
theorem test_decode_jmp : decode 0b1010011000000000#16 = .jmp 6 := by decide
theorem test_decode_jip : decode 0b1011011110000000#16 = .jip 7 8 := by decide
theorem test_decode_lod : decode 0b1100100110100000#16 = .lod 9 10 := by decide
theorem test_decode_sto : decode 0b1101101111000000#16 = .sto 11 12 := by decide
theorem test_decode_shl : decode 0b1110000100100011#16 = .shl 1 2 3 := by decide
theorem test_decode_shr : decode 0b1111001100100001#16 = .shr 3 2 1 := by decide

/-- Unused bits set (95_test_vectors.md section 2.8). -/
theorem test_decode_unused_bits :
    decode 0x0FFF#16 = .nop ∧ decode 0x1ABC#16 = .halt ∧ decode 0x7015#16 = .not 0 1 ∧ decode 0xA3FF#16 = .jmp 3 ∧
      decode 0xD12F#16 = .sto 1 2 ∧ decode 0xC13F#16 = .lod 1 3 := by decide

theorem test_encode_words :
    encode (.jip 7 8) = 0xB780#16 ∧ encode (.ist 5 171) = 0x95AB#16 ∧ encode (.not 10 11) = 0x7AB0#16 ∧
      encode (.shr 3 2 1) = 0xF321#16 := by decide

/-- The table's numbering: one 16-bit word, bit 0 its least significant bit. -/
theorem test_decodeTableWord : decodeTableWord 16 0x2123 = some (.add 1 2 3) ∧ decodeTableWord 24 0 = none := by decide

/-! ## Well-formedness: an ill-formed term for each check -/

theorem test_wf_refuses_zero_destination : Instr.wellFormed (.add 0 1 14) = false := by decide
theorem test_wf_refuses_status_destination : Instr.wellFormed (.ist 15 42) = false := by decide
theorem test_wf_accepts_status_source : Instr.wellFormed (.not 15 0) = true := by decide
theorem test_wf_refuses_long_program : programFits (List.replicate 256 0) = false := by decide +kernel
theorem test_wf_accepts_full_program : programFits (List.replicate 255 0) = true := by decide +kernel

/-! ## One step of each instruction (95_test_vectors.md sections 2.1 to 2.8) -/

theorem test_nop_clears_status : look 0 (machine [0, 0, 0, 0x0000] 3 [(15, 6)] []) = some (0, 0, 4) := by decide
theorem test_halt_keeps_status_and_pc :
    (nextOf (step (machine [0x0000, 0x1ABC] 1 [(15, 4)] []))).map (fun t => (t.terminated, t.readReg 15, t.pc)) =
      some (true, 4, 1) := by decide
theorem test_add_wraps : look 2 (machine [0x2012] 0 [(0, 200), (1, 100)] []) = some (44, 4, 1) := by decide
theorem test_add_256_is_not_zero : look 2 (machine [0x2012] 0 [(0, 200), (1, 56)] []) = some (0, 4, 1) := by decide
theorem test_add_source_is_destination : look 1 (machine [0x2111] 0 [(1, 100)] []) = some (200, 0, 1) := by decide
theorem test_sub_borrows : look 2 (machine [0x3012] 0 [(0, 3), (1, 5)] []) = some (254, 6, 1) := by decide
theorem test_sub_reads_status : look 0 (machine [0x3EF0] 0 [(15, 6)] []) = some (250, 6, 1) := by decide
theorem test_and_bits : look 2 (machine [0x4012] 0 [(0, 240), (1, 60)] []) = some (48, 0, 1) := by decide
theorem test_or_bits : look 2 (machine [0x5012] 0 [(0, 18), (1, 52)] []) = some (54, 0, 1) := by decide
theorem test_xor_bits : look 2 (machine [0x6012] 0 [(0, 18), (1, 52)] []) = some (38, 0, 1) := by decide
theorem test_xor_clears : look 0 (machine [0x6000] 0 [(0, 77)] []) = some (0, 1, 1) := by decide
theorem test_not_of_255_is_not_zero : look 1 (machine [0x7010] 0 [(0, 255)] []) = some (0, 6, 1) := by decide
theorem test_not_reads_status : look 1 (machine [0x7F10] 0 [(15, 4)] []) = some (251, 6, 1) := by decide
theorem test_set_source_first : look 0 (machine [0x8100] 0 [(1, 7)] []) = some (7, 0, 1) := by decide
theorem test_set_as_written_in_the_source_example : look 1 (machine [0x8010] 0 [(1, 7)] []) = some (0, 1, 1) := by decide
theorem test_ist_fields : look 13 (machine [0x9D80] 0 [] []) = some (128, 0, 1) := by decide
theorem test_ist_zero : look 3 (machine [0x9300] 0 [(3, 9)] []) = some (0, 1, 1) := by decide
theorem test_jmp_target : look 3 (machine [0, 0, 0, 0, 0, 0, 0, 0, 0, 0xA300] 9 [(3, 4), (15, 1)] []) = some (4, 0, 4) := by decide
theorem test_jmp_out_of_bounds_is_accepted : look 3 (machine [0xA300] 0 [(3, 200)] []) = some (200, 0, 200) := by decide
theorem test_jip_taken : look 3 (machine [0, 0, 0, 0, 0, 0, 0xB300] 6 [(3, 4), (0, 255)] []) = some (4, 0, 4) := by decide
theorem test_jip_on_status_not_taken : look 3 (machine [0, 0, 0, 0, 0, 0, 0xB3F0] 6 [(3, 4)] []) = some (4, 0, 7) := by decide
theorem test_lod_address_first : look 1 (machine [0xC110] 0 [(1, 10)] [(10, 7)]) = some (7, 0, 1) := by decide
theorem test_lod_unwritten_reads_zero : look 2 (machine [0xC120] 0 [(1, 255), (2, 9)] []) = some (0, 1, 1) := by decide
theorem test_sto_stores :
    (nextOf (step (machine [0xD120] 0 [(1, 10), (2, 42), (15, 4)] []))).map (fun t => (t.mem, t.readReg 15)) =
      some ([(10, 42)], 0) := by decide
theorem test_sto_zero_byte_is_unlisted :
    (nextOf (step (machine [0xD1E0] 0 [(1, 255)] [(3, 1), (255, 9)]))).map (fun t => t.mem) = some [(3, 1)] := by decide
theorem test_shl_keeps_low_byte : look 2 (machine [0xE012] 0 [(0, 3), (1, 7)] []) = some (128, 4, 1) := by decide
theorem test_shl_by_255 : look 2 (machine [0xE012] 0 [(0, 255), (1, 255)] []) = some (0, 4, 1) := by decide
theorem test_shr_by_3 : look 2 (machine [0xF012] 0 [(0, 200), (1, 3)] []) = some (25, 0, 1) := by decide
theorem test_shr_by_32 : look 2 (machine [0xF012] 0 [(0, 200), (1, 32)] []) = some (0, 1, 1) := by decide
theorem test_destination_zero_is_undone : look 14 (machine [0x201E] 0 [(0, 200), (1, 100)] []) = some (0, 4, 1) := by decide
theorem test_destination_status_holds_the_flags : look 15 (machine [0x201F] 0 [(0, 200), (1, 100)] []) = some (4, 4, 1) := by decide

/-! ## The step machine, reset and the interface (95_test_vectors.md section 2.7, example L1-8) -/

theorem test_step_past_the_end : step (machine [0x0000] 1 [(5, 3)] [(2, 8)]) = .fault .outOfBounds := by rfl
theorem test_step_from_reset_faults : step State.reset = .fault .outOfBounds := by rfl
theorem test_terminated_is_tested_first :
    nextOf (step { machine [0x0000] 5 [] [] with terminated := true }) =
      some { machine [0x0000] 5 [] [] with terminated := true } := by decide
theorem test_long_imem_is_refused : step (machine (List.replicate 256 0) 0 [] []) = .refused .imemTooLong := by
  rw [step, if_neg (by decide), if_pos (by decide +kernel)]
theorem test_fetch_word_runs_first :
    (nextOf (step (State.reset.withFetchWord 16 0x9105))).map (fun t => (t.readReg 1, t.pc)) = some (5, 1) := by decide
theorem test_reset_keeps_the_program :
    (machine [0x9105] 1 [(1, 5)] [(5, 5)]).resetKeepingImem = machine [0x9105] 0 [] [] := by decide
theorem test_ports :
    ((machine [] 7 [(3, 9)] [(255, 1)]).ports.pcOut, (machine [] 7 [(3, 9)] [(255, 1)]).ports.regOut[3],
      (machine [] 7 [(3, 9)] [(255, 1)]).ports.memOut[255]) = (7, 9, 1) := by decide +kernel

/-! ## The assembler (95_test_vectors.md section 2.10) -/

/-- `IST end r0 end: HALT`: a forward reference. -/
theorem test_assemble_label :
    assemble ['I', 'S', 'T', ' ', 'e', 'n', 'd', ' ', 'r', '0', ' ', 'e', 'n', 'd', ':', ' ', 'H', 'A', 'L', 'T'] =
      .ok [0x9001, 0x1000] := by decide +kernel
/-- `nop /**/ HALT`. -/
theorem test_assemble_comment_and_case :
    assemble ['n', 'o', 'p', ' ', '/', '*', '*', '/', ' ', 'H', 'A', 'L', 'T'] = .ok [0x0000, 0x1000] := by decide +kernel
/-- `NOP /*/ HALT`. -/
theorem test_comment_not_closed :
    assemble ['N', 'O', 'P', ' ', '/', '*', '/', ' ', 'H', 'A', 'L', 'T'] = .error ⟨.unterminatedComment, ⟨4, 6⟩⟩ := by
  decide +kernel
/-- `NOP` with a carriage return. -/
theorem test_carriage_return_is_unknown :
    assemble ['N', 'O', 'P', '\r', '\n'] = .error ⟨.unknownCharacter, ⟨3, 4⟩⟩ := by decide +kernel
/-- `IST 256 r0`. -/
theorem test_immediate_too_large :
    assemble ['I', 'S', 'T', ' ', '2', '5', '6', ' ', 'r', '0'] = .error ⟨.immediateTooLarge, ⟨4, 7⟩⟩ := by decide +kernel
/-- `NOT r0 status`. -/
theorem test_not_writable :
    assemble ['N', 'O', 'T', ' ', 'r', '0', ' ', 's', 't', 'a', 't', 'u', 's'] = .error ⟨.notWritable, ⟨7, 13⟩⟩ := by
  decide +kernel
/-- `a: NOP a: NOP`. -/
theorem test_duplicate_label :
    assemble ['a', ':', ' ', 'N', 'O', 'P', ' ', 'a', ':', ' ', 'N', 'O', 'P'] = .error ⟨.duplicateLabel, ⟨7, 8⟩⟩ := by
  decide +kernel
/-- `JMP loop`. -/
theorem test_jmp_takes_no_label :
    assemble ['J', 'M', 'P', ' ', 'l', 'o', 'o', 'p'] = .error ⟨.unknownRegister, ⟨4, 8⟩⟩ := by decide +kernel
/-- `x:`, from 30_encoding.md R86. -/
theorem test_label_without_mnemonic :
    assemble ['x', ':'] = .error ⟨.missingInstruction, ⟨2, 2⟩⟩ := by decide +kernel
/-- Rendering by the rule of 30_encoding.md R98: the second line of `N`, `A R`, `B`, its underline and its number. -/
theorem test_render_one_line :
    render ['N', '\n', 'A', ' ', 'R', '\n', 'B'] ⟨4, 5⟩ ['m'] =
      ['m', '\n', 'A', ' ', 'R', '\n', ' ', ' ', '^', '\n', 'A', 't', ' ', 'l', 'i', 'n', 'e', ' ', '2'] := by
  decide +kernel

/-- The same text and a span from its first line to its second. -/
theorem test_render_two_lines :
    (Report.render ⟨.unknownMnemonic, ⟨0, 3⟩, ['m'], ['N', '\n', 'A', ' ', 'R', '\n', 'B']⟩) =
      ['m', '\n', 'N', '\n', '^', '\n', 'A', ' ', 'R', '\n', '^', '\n',
        'A', 't', ' ', 'l', 'i', 'n', 'e', 's', ' ', '1', '-', '2'] := by decide +kernel

/-! ## Witnesses: the hypotheses of each statement, met together -/

theorem witness_UnusedBitsAreIgnored :
    opcodeOf 0x7015#16 = opcodeOf 0x7010#16 ∧ 0x7015#16 ≠ 0x7010#16 ∧
      0x7015#16 &&& (opcodeOf 0x7010#16).format.usedBits = 0x7010#16 &&& (opcodeOf 0x7010#16).format.usedBits := by decide

/-- The last word of the program. -/
theorem witness_StepExecutesTheFetchedInstruction :
    (machine [0, 0x2012] 1 [] []).terminated = false ∧ programFits (machine [0, 0x2012] 1 [] []).imem = true ∧
      (machine [0, 0x2012] 1 [] []).imem[(machine [0, 0x2012] 1 [] []).pc.toNat]? = some 0x2012 := by decide

/-- The program counter just past the end; and an empty instruction memory. -/
theorem witness_StepOutOfBoundsRaisesTheError :
    ((machine [0] 1 [] []).terminated = false ∧ (machine [0] 1 [] []).imem.length ≤ (machine [0] 1 [] []).pc.toNat) ∧
      (State.reset.terminated = false ∧ State.reset.imem = []) := by decide

theorem witness_HaltBitIsSetByHaltAndClearedByReset :
    (Instr.nop ≠ .halt ∧ (nextOf (exec .nop State.reset)).isSome = true) ∧
      ({ State.reset with terminated := true } : State).terminated = true ∧
      clock .reset { State.reset with terminated := true } = .ok (State.reset, .none) := by decide

/-- Terminated with the program counter past the end; at the end; one before it. -/
theorem witness_StepOutcomesInOrder :
    (programFits (machine [0] 5 [] []).imem = true ∧ ({ machine [0] 5 [] [] with terminated := true }).terminated = true) ∧
      ((machine [0] 1 [] []).terminated = false ∧ (machine [0] 1 [] []).imem.length ≤ (machine [0] 1 [] []).pc.toNat) ∧
      ((machine [0] 0 [] []).terminated = false ∧
        (machine [0] 0 [] []).pc.toNat < (machine [0] 0 [] []).imem.length) := by decide

theorem witness_ExecutionErrorRepeatsUntilReset :
    clock .step (machine [0] 1 [] []) = .ok (machine [0] 1 [] [], .errOob) ∧ (machine [0] 1 [] []).imem ≠ [] := by decide

theorem witness_PlacedWordIsTheOneExecuted :
    65535 < 2 ^ 16 ∧ (machine [0] 254 [] []).pc.toNat < 255 ∧ programFits (machine [0] 254 [] []).imem = true ∧
      0 < (machine [0] 254 [] []).imem.length ∧ 0 ≠ (machine [0] 254 [] []).pc.toNat := by decide

/-- Registers 0 and 13, the bounds of the writable ones (AND, OR, XOR, IST and every statement with a writable `rd`). -/
theorem witness_writable_destinations : Reg.writable 0 = true ∧ Reg.writable 13 = true := by decide

/-- Registers 14 and 15 (IST's rejected destinations). -/
theorem witness_unwritable_destinations : Reg.writable 14 = false ∧ Reg.writable 15 = false := by decide

theorem witness_IstSetsTheRegisterToTheImmediate :
    Reg.writable 13 = true ∧ 255 < 256 ∧ Reg.writable 14 = false ∧ 255 ≤ 255 := by decide

theorem witness_StoStoresOneByte :
    (machine [] 0 [(1, 255)] []).address 1 = 255 ∧ (254 : Byte) ≠ 255 := by decide

theorem witness_DiscardedDestinationLeavesOnlyTheFlags :
    (Instr.add 0 1 2).dest.isSome = true ∧ Reg.writable 14 = false ∧ Reg.writable 15 = false := by decide

/-- A jump to the first index past the end. -/
theorem witness_ProgramCounterUpdateOfEveryInstruction :
    Instr.jmp 1 ≠ .halt ∧ (machine [0] 0 [(1, 1)] []).terminated = false ∧
      (nextOf (exec (.jmp 1) (machine [0] 0 [(1, 1)] []))).map
        (fun t => decide ((machine [0] 0 [(1, 1)] []).imem.length ≤ t.pc.toNat)) = some true := by decide

theorem witness_StatusBytesEachInstructionCanLeave :
    (nextOf (exec .halt State.reset)).isSome = true ∧ (nextOf (exec (.not 0 1) State.reset)).isSome = true := by decide

/-- r13 changes by IST, and by reset. -/
theorem witness_GeneralRegistersChangeOnlyAsDestinations :
    (clock .step (machine [0x9D80] 0 [] [])).map (fun p => p.1.readReg 13) = .ok 128 ∧
      (machine [0x9D80] 0 [] []).readReg 13 = 0 ∧
      (clock .reset (machine [] 0 [(13, 1)] [])).map (fun p => p.1.readReg 13) = .ok 0 ∧
      (machine [] 0 [(13, 1)] []).readReg 13 = 1 ∧ Reg.writable 13 = true ∧ Reg.writable 0 = true ∧
      (Instr.ist 0 1).dest.isSome = true := by decide

/-- Address 255 changes by STO, and by reset. -/
theorem witness_DataMemoryChangesOnlyByStoAndReset :
    (clock .step (machine [0xD120] 0 [(1, 255), (2, 1)] [])).map (fun p => p.1.readMem 255) = .ok 1 ∧
      (machine [0xD120] 0 [(1, 255), (2, 1)] []).readMem 255 = 0 ∧
      (clock .reset (machine [] 0 [] [(255, 7)])).map (fun p => p.1.readMem 255) = .ok 0 ∧
      (machine [] 0 [] [(255, 7)]).readMem 255 = 7 := by decide

theorem witness_InstructionMemoryNeverChanges :
    (clocks [.step, .reset, .idle] (machine [0x9D80] 0 [] [])).map (fun p => p.2) = .ok [.ok, .none, .none] := by decide

/-- The last index an instruction can have, in a full instruction memory. -/
theorem witness_ProgramCounterNeverWraps :
    (nextOf (step (machine (List.replicate 255 0) 254 [] []))).map (fun t => t.pc) = some 255 ∧
      (machine (List.replicate 255 0) 254 [] []).terminated = false := by decide +kernel

/-- The stored address, and another one. -/
theorem witness_LoadAfterStoreReturnsTheStoredByte :
    (nextOf (exec (.sto 1 2) (machine [] 0 [(1, 10), (2, 42), (3, 11)] []))).map
        (fun t => (decide (t.readReg 1 = 10), decide (t.readReg 3 = 10))) = some (true, false) ∧
      Reg.writable 13 = true := by decide

/-- A sum of 0, a sum of 255 and a sum of 256. -/
theorem witness_BranchOnStatusTestsThePreviousInstruction :
    (nextOf (exec (.add 0 1 2) State.reset)).isSome = true ∧
      (nextOf (exec (.add 0 1 2) (machine [] 0 [(0, 255)] []))).isSome = true ∧
      (nextOf (exec (.add 0 1 2) (machine [] 0 [(0, 255), (1, 1)] []))).isSome = true := by decide

/-- The bounds of the classifier's ranges, with the bytes of 40_step_and_flags.md R125. -/
theorem witness_ClassifierSetsTheThreeFlags :
    classify 1 = 0 ∧ classify 255 = 0 ∧ classify 0 = 1 ∧ classify 256 = 4 ∧ classify (-1) = 6 ∧ (3 : Nat) ≤ 3 := by decide

theorem witness_TruncationIsTheRemainderModulo256 :
    (0 : Int) ≤ 0 ∧ (0 : Int) ≤ 255 ∧ (255 : Int) ≤ 255 ∧ trunc8 300 = 44 := by decide

theorem witness_ResetZeroesEverythingButTheInstructionMemory :
    (machine [7] 1 [(1, 5)] [(5, 5)]).imem = (machine [7] 0 [] []).imem ∧
      machine [7] 1 [(1, 5)] [(5, 5)] ≠ machine [7] 0 [] [] := by decide

theorem witness_ConstructionGivesTheResetStateOrRefuses :
    (List.replicate 255 (0 : Word)).length ≤ 255 ∧ 255 < (List.replicate 256 (0 : Word)).length := by decide +kernel

/-- A state that meets the invariant, with memory, flags and registers set, whose step answers a next state. -/
theorem witness_EveryStepKeepsTheInvariant :
    (machine [0xD120] 0 [(1, 255), (2, 1), (15, 6)] [(3, 4)]).Inv ∧
      (nextOf (step (machine [0xD120] 0 [(1, 255), (2, 1), (15, 6)] [(3, 4)]))).isSome = true ∧
      (clock .reset (machine [0xD120] 0 [(1, 255), (2, 1), (15, 6)] [(3, 4)])).isOk = true :=
  ⟨⟨by decide, by decide, by decide, by decide⟩, by decide, by decide⟩

theorem witness_ReachableStatesMeetTheInvariant : Reachable [0x1000] (machine [0x1000] 0 [] []) :=
  .construct rfl

theorem witness_CanonicalMemoriesThatReadAlikeAreEqual : Memory.wf [(0, 1), (255, 2)] = true := by decide

/-- An ended run, and a faulted one. -/
theorem witness_EndedAndFaultedRunsAreFinal :
    runFor 1 (machine [0x1000] 0 [] []) = .ended { machine [0x1000] 0 [] [] with terminated := true } ∧
      runFor 2 (machine [0x0000] 0 [] []) = .faulted .outOfBounds (machine [0x0000] 1 [] []) := by decide

/-- For its last clause: `ADD R0 …`, whose first argument is rejected. -/
theorem witness_RegisterArgumentsAreChecked :
    (13 : Reg) ≠ Reg.zero ∧ (13 : Reg) ≠ Reg.status ∧ ArgKind.writereg ≠ .num ∧ ArgKind.reg ≠ .num ∧
      ['R', '0'] ∉ registerNames.toList ∧ (TokenKind.endOfFile ≠ .identifier ['r', '0']) ∧
      parseArg .reg ⟨.endOfFile, ⟨0, 0⟩⟩ = .error ⟨.missingRegister, ⟨0, 0⟩⟩ ∧
      parseArg .reg ⟨.identifier ['R', '0'], ⟨4, 6⟩⟩ = .error ⟨.unknownRegister, ⟨4, 6⟩⟩ := by decide

theorem witness_ImmediateArgumentsAreChecked :
    255 ≤ 255 ∧ 255 < 256 ∧ parseArg .num ⟨.number 256, ⟨4, 7⟩⟩ = .error ⟨.immediateTooLarge, ⟨4, 7⟩⟩ ∧
      parseArg .num ⟨.colon, ⟨0, 1⟩⟩ = .error ⟨.missingNumberOrLabel, ⟨0, 1⟩⟩ := by decide

/-- The characters beside `a` and `z` are no letters; HALT has no argument, ADD has three. -/
theorem witness_MnemonicsMatchWhateverTheirCase :
    ['n', 'O', 'p'].map upper = mnemonic .nop ∧ upper (Char.ofNat 96) = Char.ofNat 96 ∧
      upper (Char.ofNat 123) = Char.ofNat 123 ∧ ['h', 'a', 'l', 't'].map upper = mnemonic .halt ∧
      formatArgs (Opcode.halt).format = [] ∧ ['a', 'd', 'D'].map upper = mnemonic .add ∧
      formatArgs (Opcode.add).format = [.reg, .reg, .writereg] ∧
      (∀ n : Fin 16, ['F', 'o', 'o'].map upper ≠ mnemonic (Opcode.ofNumber n)) ∧
      TokenKind.number 5 ≠ .identifier [] := by decide

/-- The empty text: no word. -/
theorem witness_CapacityErrorNamesTheCountAtTheEnd_short :
    lex [] = .ok [⟨.endOfFile, ⟨0, 0⟩⟩] ∧ parse [⟨.endOfFile, ⟨0, 0⟩⟩] = .ok Assembly.empty ∧
      resolve [] [] [] = .ok [] := by decide

/-- 256 NOPs: the assembler answers the capacity error only where the three hypotheses are met. -/
theorem witness_CapacityErrorNamesTheCountAtTheEnd_long :
    assemble (programText (List.replicate 256 .nop)) = .error ⟨.programTooLong 256, ⟨1024, 1024⟩⟩ := by decide +kernel

theorem witness_AssembledProgramsAreCanonical :
    assemble ['J', 'M', 'P', ' ', 'r', '6'] = .ok [0xA600] := by decide +kernel

theorem witness_AssemblerAndDecoderAgree :
    (∀ i ∈ [Instr.ist 13 255, .nop, .jip 14 15], i.wellFormed = true) ∧ [Instr.ist 13 255, .nop, .jip 14 15].length ≤ 255 ∧
      (∀ i ∈ List.replicate 256 Instr.nop, i.wellFormed = true) ∧ 256 ≤ (List.replicate 256 Instr.nop).length := by
  decide +kernel

/-- A span of the whole of line 2 of 3, one from line 1 to line 3 over an empty line, and a text that is rejected. -/
theorem witness_ErrorsAreRenderedOnTheirLines :
    (∀ l ∈ [['N']], '\n' ∉ l) ∧ '\n' ∉ ([] ++ ['A'] ++ [] : List Char) ∧ (∀ l ∈ [([] : List Char)], '\n' ∉ l) ∧
      '\n' ∉ ['A', 'B'] ∧ ['A'] ≠ [] ∧ assemble ['F'] = .error ⟨.unknownMnemonic, ⟨0, 1⟩⟩ := by decide +kernel

end Sys2Proof.Tests
end

section
/-! The halt bit (10_state.md R28): what sets it, what leaves it alone, and what a step does while it is set. -/

namespace Sys2Proof.Machine

/-- Whatever an instruction other than HALT writes, it is no write to the halt bit. -/
theorem exec_terminated_of_ne_halt {i : Instr} {s t : State} (hi : i ≠ .halt) (h : exec i s = .next t) :
    t.terminated = s.terminated := by
  obtain ⟨rfl, -⟩ | ⟨rd, raw, -, rfl⟩ | ⟨rs1, rs2, -, rfl⟩ | ⟨-, -, -, target, rfl⟩ := exec_cases h
  · exact absurd rfl hi
  · exact State.retireResult_terminated s rd raw
  · rw [State.endStep_terminated, State.writeMem_terminated]
  · exact State.endStep_terminated s clearedFlags target

/-- The halt bit is the first thing a step tests (40_step_and_flags.md R121). -/
theorem step_of_terminated {s : State} (h : s.terminated = true) : step s = .next s := by
  rw [step, if_pos h]

theorem clock_step_of_terminated {s : State} (h : s.terminated = true) : clock .step s = .ok (s, .noop) := by
  simp only [clock, step_of_terminated h, if_pos h]

/-- While the halt bit is set, every command but RESET answers the same state. -/
theorem clock_of_terminated {c : Command} {s t : State} {r : Result} (hc : c ≠ .reset) (hs : s.terminated = true)
    (h : clock c s = .ok (t, r)) : t = s := by
  cases c with
  | reset => exact absurd rfl hc
  | idle => cases h; rfl
  | step =>
    rw [clock_step_of_terminated hs] at h
    cases h
    rfl

/-- A command that clears the halt bit changes the state of a terminated machine, so it is RESET. -/
theorem clock_clears_terminated {c : Command} {s t : State} {r : Result} (h : clock c s = .ok (t, r))
    (hs : s.terminated = true) (ht : t.terminated = false) : c = .reset := by
  by_contra hc
  rw [clock_of_terminated hc hs h, hs] at ht
  exact nomatch ht

/-- Settles O7, clause by clause: HALT's own write, the instructions' frame (`exec_cases`), the commands, RESET, the no-op
step, and the read port. -/
theorem haltBitIsSetByHaltAndClearedByReset : Obligations.HaltBitIsSetByHaltAndClearedByReset := by
  refine ⟨fun s => ⟨{ s with terminated := true }, rfl, rfl⟩, ?others, ?clears, ?reset, ?noop, fun _ => rfl⟩
  case others => exact fun _ _ _ => exec_terminated_of_ne_halt
  case clears => exact fun _ _ _ _ => clock_clears_terminated
  case reset => exact fun s => ⟨s.resetKeepingImem, rfl, s.resetKeepingImem_terminated⟩
  case noop => exact fun _ h => ⟨step_of_terminated h, clock_step_of_terminated h⟩

end Sys2Proof.Machine
end

section
/-! The decoder is total (30_encoding.md R76): the opcode of a word is a function of bits [15:12] alone, onto the sixteen
opcodes, and no instruction raises anything. -/

namespace Sys2Proof

/-- The table of opcodes holds each opcode at its own number; with `ofNumber_number`, the two are inverse. -/
theorem number_ofNumber (n : Fin 16) : (Opcode.ofNumber n).number = n := by
  revert n
  decide

theorem number_injective : Function.Injective Opcode.number :=
  Function.LeftInverse.injective ofNumber_number

/-- The decoder's arm for an opcode builds an instruction of that opcode. -/
theorem opcode_decode (w : Word) : (decode w).opcode = opcodeOf w := by
  rw [decode]
  cases opcodeOf w <;> rfl

/-- Bits [15:12] of a word are the number of the opcode it decodes to. -/
theorem opcode_decode_number_val (w : Word) : (decode w).opcode.number.val = w.toNat / 4096 := by
  have hop : (opField w).val = w.toNat / 4096 % 16 := nibble_val w 12
  rw [opcode_decode, opcodeOf, number_ofNumber, hop]
  omega

theorem opcode_decode_eq_iff (w w' : Word) :
    (decode w).opcode = (decode w').opcode ↔ w.toNat / 4096 = w'.toNat / 4096 := by
  rw [← number_injective.eq_iff, Fin.ext_iff, opcode_decode_number_val, opcode_decode_number_val]

theorem opcode_decode_packFields (op : Opcode) (f1 f2 f3 : BitVec 4) :
    (decode (packFields op f1 f2 f3)).opcode = op := by
  rw [opcode_decode, opcodeOf, opField_packFields, ofNumber_number]

namespace Machine

/-- No instruction stops the machine, in any state. -/
theorem exec_answers_next (i : Instr) (s : State) : ∃ t, exec i s = .next t := by
  cases i <;> exact ⟨_, rfl⟩

end Machine

/-- Settles O4: numbers and opcodes are inverse, so an opcode agrees exactly where bits [15:12] do, and a word packed with
an opcode shows that each is reached. -/
theorem everyWordSelectsOneInstructionAndExecutes : Obligations.EveryWordSelectsOneInstructionAndExecutes :=
  ⟨opcode_decode_number_val,
    fun w w' => (opcode_decode_eq_iff w w').symm,
    fun op => ⟨packFields op 0#4 0#4 0#4, opcode_decode_packFields op _ _ _⟩,
    fun w => Machine.exec_answers_next (decode w)⟩

end Sys2Proof
end

section
/-! The capacity check (30_encoding.md R95) and the token that anchors its error: the lexer ends every token list with
EndOfFile at the end of the text (R80). -/

namespace Sys2Proof.Asm

/-- What the lexer did with a text of at least one character that it passes. -/
theorem lexFrom_cons_ok {m : LexMode} {off : Nat} {c : Char} {cs : List Char} {tokens : List Token}
    (h : lexFrom m off (c :: cs) = .ok tokens) :
    ∃ ts m' us, lexChar m off c = .ok (ts, m') ∧ lexFrom m' (off + c.utf8Size) cs = .ok us ∧ tokens = ts ++ us := by
  rw [lexFrom] at h
  split at h
  · exact nomatch h
  next ts m' hc =>
    split at h
    · exact nomatch h
    next us hcs => exact ⟨ts, m', us, hc, hcs, (Except.ok.inj h).symm⟩

/-- Every mode that may end a text ends it with EndOfFile, after at most one open token. -/
theorem lexEnd_getLast {m : LexMode} {off : Nat} {tokens : List Token} (h : lexEnd m off = .ok tokens) :
    tokens.getLast? = some ⟨.endOfFile, ⟨off, off⟩⟩ := by
  cases m <;> cases h <;> rfl

theorem lexFrom_getLast {m : LexMode} {off : Nat} {source : List Char} {tokens : List Token}
    (h : lexFrom m off source = .ok tokens) :
    tokens.getLast? = some ⟨.endOfFile, ⟨off + byteLength source, off + byteLength source⟩⟩ := by
  induction source generalizing m off tokens with
  | nil => exact lexEnd_getLast h
  | cons c cs ih =>
    obtain ⟨ts, m', us, -, hcs, rfl⟩ := lexFrom_cons_ok h
    rw [List.getLast?_append, ih hcs, byteLength, ← Nat.add_assoc]
    rfl

theorem lex_getLast {source : List Char} {tokens : List Token} (h : lex source = .ok tokens) :
    tokens.getLast? = some ⟨.endOfFile, ⟨byteLength source, byteLength source⟩⟩ := by
  simpa only [Nat.zero_add] using lexFrom_getLast h

theorem checkCapacity_of_le {words : List Word} (stop : Nat) (h : words.length ≤ 255) :
    checkCapacity stop words = .ok words :=
  if_neg (by omega)

theorem checkCapacity_of_ge {words : List Word} (stop : Nat) (h : 256 ≤ words.length) :
    checkCapacity stop words = .error ⟨.programTooLong words.length, ⟨stop, stop⟩⟩ :=
  if_pos h

/-- Of a text that passes the lexer and both passes, only the capacity check is left. -/
theorem assemble_eq_checkCapacity {source : List Char} {tokens : List Token} {a : Assembly} {words : List Word}
    (hlex : lex source = .ok tokens) (hparse : parse tokens = .ok a)
    (hresolve : resolve a.labels a.patches a.words = .ok words) :
    assemble source = checkCapacity (byteLength source) words := by
  simp only [assemble, hlex, hparse, hresolve]

/-- Settles O48: the capacity check decides, and its anchor is the span of the last token (`lex_getLast`). -/
theorem capacityErrorNamesTheCountAtTheEnd : Obligations.CapacityErrorNamesTheCountAtTheEnd := by
  intro source tokens a words hlex hparse hresolve
  rw [assemble_eq_checkCapacity hlex hparse hresolve]
  exact ⟨checkCapacity_of_le _, fun h => ⟨_, lex_getLast hlex, rfl, rfl, checkCapacity_of_ge _ h⟩⟩

end Sys2Proof.Asm
end

section
/-! A step's two outcomes on a machine that is not terminated (40_step_and_flags.md R122, R123): in bounds it executes
the fetched word, out of bounds it raises the execution error. -/

namespace Sys2Proof.Machine

theorem step_of_fetched {s : State} {w : Word} (hs : s.terminated = false) (hfits : s.imem.length ≤ 255)
    (hw : s.imem[s.pc.toNat]? = some w) : step s = exec (decode w) s := by
  have hmax : ¬Config.maxWords < s.imem.length := Nat.not_lt.mpr hfits
  rw [step, hs, if_neg Bool.false_ne_true, if_neg hmax, State.fetch, hw]

/-- A program counter is at most 255, so a machine it is out of bounds of is not one of those refused as too long. -/
theorem step_of_outOfBounds {s : State} (hs : s.terminated = false) (hpc : s.imem.length ≤ s.pc.toNat) :
    step s = .fault .outOfBounds := by
  have hmax : ¬Config.maxWords < s.imem.length := Nat.not_lt.mpr (hpc.trans (Nat.le_of_lt_succ s.pc.isLt))
  rw [step, hs, if_neg Bool.false_ne_true, if_neg hmax, State.fetch, List.getElem?_eq_none hpc, raiseExecutionError]

theorem clock_step_of_fault {s : State} (h : step s = .fault .outOfBounds) : clock .step s = .ok (s, .errOob) := by
  simp only [clock, h]

theorem outOfBounds_step_and_clock {s : State} (hs : s.terminated = false) (hpc : s.imem.length ≤ s.pc.toNat) :
    step s = .fault .outOfBounds ∧ clock .step s = .ok (s, .errOob) :=
  have h := step_of_outOfBounds hs hpc
  ⟨h, clock_step_of_fault h⟩

/-- Settles O5: neither check of `step` applies, and the fetch answers the word. -/
theorem stepExecutesTheFetchedInstruction : Obligations.StepExecutesTheFetchedInstruction :=
  fun s _ hs hfits hw => step_of_fetched hs ((programFits_iff s.imem).mp hfits) hw

/-- Settles O6: an empty instruction memory is the case where every program counter is out of bounds. -/
theorem stepOutOfBoundsRaisesTheError : Obligations.StepOutOfBoundsRaisesTheError := by
  refine ⟨fun _ => outOfBounds_step_and_clock, fun s hs hempty => outOfBounds_step_and_clock hs ?_⟩
  rw [hempty]
  exact Nat.zero_le _

end Sys2Proof.Machine
end

section
/-! The program counter after every instruction (40_step_and_flags.md R129). -/

namespace Sys2Proof.Machine

/-- No instruction writes the instruction memory (10_state.md R30). -/
theorem exec_imem {i : Instr} {s t : State} (h : exec i s = .next t) : t.imem = s.imem := by
  obtain ⟨-, rfl⟩ | ⟨rd, raw, -, rfl⟩ | ⟨rs1, rs2, -, rfl⟩ | ⟨-, -, -, target, rfl⟩ := exec_cases h
  · rfl
  · exact State.retireResult_imem s rd raw
  · rw [State.endStep_imem, State.writeMem_imem]
  · exact State.endStep_imem s clearedFlags target

theorem State.source_eq_zero_iff (s : State) (r : Reg) : s.source r = 0 ↔ s.readReg r = 0 :=
  (BitVec.toNat_eq (y := 0)).symm

/-- JIP's condition is the register's value, as a byte or as a number. -/
theorem exec_jip_pc {rs1 rs2 : Reg} {s t : State} (h : exec (.jip rs1 rs2) s = .next t) :
    t.pc = if s.readReg rs2 ≠ 0 then s.readReg rs1 else s.pc + 1 := by
  cases h
  simp only [State.endStep_pc, ne_eq, s.source_eq_zero_iff]
  rfl

/-- Settles O28. The target is read off each instruction's own end of step; as no instruction writes the instruction
memory and only HALT sets the halt bit, a target past the end meets the next step's check. -/
theorem programCounterUpdateOfEveryInstruction : Obligations.ProgramCounterUpdateOfEveryInstruction := by
  intro i s
  obtain ⟨t, ht⟩ := exec_answers_next i s
  refine ⟨t, ht, ?pc, ?pastTheEnd⟩
  case pc =>
    cases i with
    | jip rs1 rs2 => exact exec_jip_pc ht
    | _ => cases ht; rfl
  case pastTheEnd =>
    intro hi hs hpc
    have hterm : t.terminated = false := (exec_terminated_of_ne_halt hi ht).trans hs
    rw [← exec_imem ht] at hpc
    exact step_of_outOfBounds hterm hpc

end Sys2Proof.Machine
end

section
/-! The classifier bit by bit (40_step_and_flags.md R125): bits 0, 1 and 2 are Z, N and V, and there are no others. -/

namespace Sys2Proof.Machine

/-- A flag byte has its flag in bit 0. -/
theorem getLsbD_flagByte (b : Bool) (k : Nat) : (flagByte b).getLsbD k = (decide (k = 0) && b) := by
  cases b
  · exact BitVec.getLsbD_zero.trans (Bool.and_false _).symm
  · rw [Bool.and_true]
    exact BitVec.getLsbD_one.trans (by simp)

/-- The three shifted flags do not overlap: a bit of the status byte is one of them or 0. -/
theorem getLsbD_classify (raw : Int) (k : Nat) :
    (classify raw).getLsbD k =
      (decide (k = 2) && flagV raw || decide (k = 1) && flagN raw || decide (k = 0) && flagZ raw) := by
  simp only [classify, BitVec.getLsbD_or, BitVec.getLsbD_shiftLeft, getLsbD_flagByte]
  match k with
  | 0 | 1 | 2 | k + 3 => simp

theorem getLsbD_classify_of_three_le (raw : Int) {k : Nat} (hk : 3 ≤ k) : (classify raw).getLsbD k = false := by
  have h0 : k ≠ 0 := by omega
  have h1 : k ≠ 1 := by omega
  have h2 : k ≠ 2 := by omega
  simp [getLsbD_classify, h0, h1, h2]

theorem flagZ_iff (raw : Int) : flagZ raw = true ↔ raw = 0 := decide_eq_true_iff

theorem flagN_iff (raw : Int) : flagN raw = true ↔ raw < 0 := decide_eq_true_iff

theorem flagV_iff (raw : Int) : flagV raw = true ↔ raw < 0 ∨ 256 ≤ raw := by
  rw [flagV, Bool.or_eq_true, decide_eq_true_iff, decide_eq_true_iff]

/-- Settles O36: each bit is a flag and each flag its range of raw results; the bytes are those of the classifier's
ranges. -/
theorem classifierSetsTheThreeFlags : Obligations.ClassifierSetsTheThreeFlags := by
  intro raw
  refine ⟨?bitZ, ?bitN, ?bitV, fun _ => getLsbD_classify_of_three_le raw, ?inRange, ?isZero, classify_above,
    classify_negative⟩
  case bitZ => rw [getLsbD_classify]; simp [flagZ_iff]
  case bitN => rw [getLsbD_classify]; simp [flagN_iff]
  case bitV => rw [getLsbD_classify]; simp [flagV_iff]
  case inRange => exact fun hlo hhi hne => classify_in_range (by omega) (by omega)
  case isZero =>
    rintro rfl
    exact classify_zero

end Sys2Proof.Machine
end

section
/-! The decoder undoes the encoder (30_encoding.md R72, R73, R75): the opcode of a packed word is the one packed, and each
operand is read from the field it was put in. -/

namespace Sys2Proof

theorem opcodeOf_packFields (op : Opcode) (f1 f2 f3 : BitVec 4) : opcodeOf (packFields op f1 f2 f3) = op := by
  rw [opcodeOf, opField_packFields, ofNumber_number]

theorem opcodeOf_packImm (op : Opcode) (f1 : BitVec 4) (imm : Byte) : opcodeOf (packImm op f1 imm) = op := by
  rw [opcodeOf, opField_packImm, ofNumber_number]

theorem decode_encode (i : Instr) : decode (encode i) = i := by
  cases i <;>
    simp only [encode, decode, opcodeOf_packFields, opcodeOf_packImm, field1_packFields, field2_packFields,
      field3_packFields, field1_packImm, immField_packImm]

/-- Where the assembler emits the canonical word of an instruction, the decoder reads the instruction back. -/
theorem Machine.encodedBy_of_encode {op : Opcode} {args : List Asm.Arg} {w : Word} {i : Instr} (hw : encode i = w)
    (h : Asm.emitWord op args = encode i) : EncodedBy op args w i :=
  hw ▸ ⟨h, decode_encode i⟩

end Sys2Proof
end

section
/-! The bitwise instructions (42_alu.md R152 to R154): their raw result is a byte, so it is stored as it is and of the
three flags only Z can be set. -/

namespace Sys2Proof.Machine

theorem rawAnd_toNat (a b : Byte) : rawAnd a.toNat b.toNat = (a &&& b).toNat := by
  rw [rawAnd, BitVec.toNat_and]

theorem rawOr_toNat (a b : Byte) : rawOr a.toNat b.toNat = (a ||| b).toNat := by
  rw [rawOr, BitVec.toNat_or]

theorem rawXor_toNat (a b : Byte) : rawXor a.toNat b.toNat = (a ^^^ b).toNat := by
  rw [rawXor, BitVec.toNat_xor]

/-- The end of an instruction whose raw result is the byte `v`, with the condition of its Z flag in the instruction's own
terms. -/
theorem State.retireResult_byte (s : State) (rd : Reg) {raw : Int} {v : Byte} {z : Prop} [Decidable z]
    (hraw : raw = v.toNat) (hz : v = 0 ↔ z) :
    RegisterResult s (s.retireResult rd raw) rd v (if z then 1 else 0) := by
  subst hraw
  exact State.retireResult_result (trunc8_toNat v) ((classify_byte v).trans (if_congr hz rfl rfl))

/-- Settles O15: the conjunction of two bytes is a byte, and Z is its test for 0. -/
theorem andStoresTheConjunctionAndItsFlags : Obligations.AndStoresTheConjunctionAndItsFlags :=
  fun rs1 rs2 rd s _ =>
    ⟨encodedBy_of_encode rfl (Asm.emitWord_rrw .and rs1 rs2 rd), _, rfl,
      s.retireResult_byte rd (rawAnd_toNat _ _) Iff.rfl⟩

/-- Settles O16: the disjunction of two bytes is a byte, 0 exactly when both are. -/
theorem orStoresTheDisjunctionAndItsFlags : Obligations.OrStoresTheDisjunctionAndItsFlags :=
  fun rs1 rs2 rd s _ =>
    ⟨encodedBy_of_encode rfl (Asm.emitWord_rrw .or rs1 rs2 rd), _, rfl,
      s.retireResult_byte rd (rawOr_toNat _ _) BitVec.or_eq_zero_iff⟩

/-- Settles O17: the exclusive or of two bytes is a byte, 0 exactly when they are equal. -/
theorem xorStoresTheExclusiveOrAndItsFlags : Obligations.XorStoresTheExclusiveOrAndItsFlags :=
  fun rs1 rs2 rd s _ =>
    ⟨encodedBy_of_encode rfl (Asm.emitWord_rrw .xor rs1 rs2 rd), _, rfl,
      s.retireResult_byte rd (rawXor_toNat _ _) BitVec.xor_eq_zero_iff⟩

end Sys2Proof.Machine
end

section
/-! IST (43_move.md R181): the word its immediate, or its label reference once resolved, is put into, and the arguments
the parser rejects. -/

namespace Sys2Proof

/-- An immediate field of 0 is the fields `F2` and `F3` both 0. -/
theorem packImm_zero (op : Opcode) (f1 : BitVec 4) : packImm op f1 0 = packFields op f1 0#4 0#4 := by
  apply BitVec.eq_of_toNat_eq
  simp [toNat_packImm, toNat_packFields]

/-- Masking with 0xFF00 clears the immediate field and keeps the opcode and register fields. -/
theorem packImm_and_mask (op : Opcode) (f1 : BitVec 4) (imm : Byte) :
    packImm op f1 imm &&& 0xFF00#16 = packImm op f1 0 := by
  have hmask : 0xFF00#16 = BitVec.allOnes 8 ++ 0#8 := rfl
  rw [hmask, packImm, BitVec.and_append, BitVec.and_allOnes, BitVec.and_zero]
  rfl

/-- Or-ing a byte into an immediate field of 0 puts it there. -/
theorem packImm_zero_or_setWidth (op : Opcode) (f1 : BitVec 4) (imm : Byte) :
    packImm op f1 0 ||| imm.setWidth 16 = packImm op f1 imm := by
  have hbyte : imm.setWidth 16 = 0#8 ++ imm := BitVec.setWidth_eq_append (by decide)
  rw [hbyte, packImm, BitVec.or_append, BitVec.or_zero]
  exact congrArg _ BitVec.zero_or

namespace Asm

/-- A label reference leaves the immediate field 0 until it is resolved (30_encoding.md R92). -/
theorem emitWord_label_reg (op : Opcode) (t : Token) (a : Reg) :
    emitWord op [.label t, .reg a] = packImm op (bits4 a) 0 :=
  calc
    _ = emitWord op [.reg a] := rfl
    _ = packFields op (bits4 a) 0#4 0#4 := emitWord_one op a
    _ = _ := (packImm_zero op (bits4 a)).symm

/-- Format WI (30_encoding.md R72): the immediate is or-ed in before the register, but the order does not show. -/
theorem emitWord_imm_reg (op : Opcode) (imm : Byte) (a : Reg) :
    emitWord op [.imm imm, .reg a] = packImm op (bits4 a) imm := by
  rw [← packImm_zero_or_setWidth, packImm_zero, ← emitWord_one]
  simp only [emitWord, placeArgs]
  ac_rfl

/-- The second pass replaces the immediate field by the label's index (30_encoding.md R94). -/
theorem patchWord_packImm (index : Nat) (op : Opcode) (f1 : BitVec 4) (imm : Byte) :
    patchWord index (packImm op f1 imm) = packImm op f1 (BitVec.ofNat 8 index) := by
  rw [patchWord, packImm_and_mask, packImm_zero_or_setWidth]

theorem registerNamed_registerNames (r : Reg) : registerNamed registerNames[r] = some r := by
  revert r
  decide

theorem parseReg_registerName (r : Reg) (sp : Span) : parseReg ⟨.identifier registerNames[r], sp⟩ = .ok r := by
  simp only [parseReg, registerNamed_registerNames]

theorem parseArg_writereg_of_not_writable {r : Reg} (sp : Span) (h : r.writable = false) :
    parseArg .writereg ⟨.identifier registerNames[r], sp⟩ = .error ⟨.notWritable, sp⟩ := by
  simp only [parseArg, parseReg_registerName, h]
  rfl

theorem parseArg_num_of_gt {v : Nat} (sp : Span) (h : 255 < v) :
    parseArg .num ⟨.number v, sp⟩ = .error ⟨.immediateTooLarge, sp⟩ :=
  if_neg (Nat.not_le.mpr h)

end Asm

namespace Machine

/-- Settles O22: the immediate is a byte, so it is stored as it is and Z is its test for 0; a resolved label reference is
the canonical word of IST with the label's index. -/
theorem istSetsTheRegisterToTheImmediate : Obligations.IstSetsTheRegisterToTheImmediate := by
  refine ⟨?execution, fun _ sp hv => ⟨sp, Asm.parseArg_num_of_gt sp hv⟩,
    fun _ sp hrd => ⟨sp, Asm.parseArg_writereg_of_not_writable sp hrd⟩, ?label⟩
  case execution =>
    exact fun rd imm s _ =>
      ⟨encodedBy_of_encode rfl (Asm.emitWord_imm_reg .ist imm rd), _, rfl, s.retireResult_byte rd rfl Iff.rfl⟩
  case label =>
    intro rd t index _
    rw [Asm.emitWord_label_reg, Asm.patchWord_packImm]
    exact decode_encode (.ist rd (BitVec.ofNat 8 index))

end Machine
end Sys2Proof
end

section
/-! RESET (70_reset_and_hazards.md R230): it is a function of the instruction memory alone, and gives the values of
10_state.md R34. -/

namespace Sys2Proof.Machine

/-- The one command that can neither fail nor depend on anything but the instruction memory. -/
@[simp] theorem clock_reset (s : State) : clock .reset s = .ok (s.resetKeepingImem, .none) := rfl

theorem State.resetKeepingImem_cell (s : State) (r : Reg) : s.resetKeepingImem.regs[r] = 0 := by
  rw [State.resetKeepingImem_regs]
  exact Vector.getElem_replicate r.isLt

theorem State.readMem_resetKeepingImem (s : State) (a : Byte) : s.resetKeepingImem.readMem a = 0 := by
  rw [State.readMem, State.resetKeepingImem_mem]
  exact Memory.read_nil a.toNat

/-- Nothing of the state before survives RESET except the instruction memory. -/
theorem State.resetKeepingImem_congr {s s' : State} (h : s.imem = s'.imem) :
    s.resetKeepingImem = s'.resetKeepingImem := by
  rw [State.resetKeepingImem, State.resetKeepingImem, h]

@[simp] theorem State.resetKeepingImem_idem (s : State) : s.resetKeepingImem.resetKeepingImem = s.resetKeepingImem :=
  State.resetKeepingImem_congr s.resetKeepingImem_imem

/-- Two successful clocks in a row. -/
theorem clocks_pair {c c' : Command} {s t u : State} {r r' : Result} (h : clock c s = .ok (t, r))
    (h' : clock c' t = .ok (u, r')) : clocks [c, c'] s = .ok (u, [r, r']) := by
  simp only [clocks, h, h']

/-- The second of two RESETs changes nothing: the first has kept the instruction memory. -/
theorem clocks_reset_reset (s : State) : clocks [.reset, .reset] s = .ok (s.resetKeepingImem, [.none, .none]) := by
  rw [clocks_pair (clock_reset s) (clock_reset s.resetKeepingImem), State.resetKeepingImem_idem]

/-- Settles O38: the fields of the reset state, its dependence on the instruction memory alone, and its idempotence. -/
theorem resetZeroesEverythingButTheInstructionMemory : Obligations.ResetZeroesEverythingButTheInstructionMemory := by
  refine ⟨?values, ?discardsPriorState, clocks_reset_reset⟩
  case values =>
    exact fun s => ⟨s.resetKeepingImem, clock_reset s, s.resetKeepingImem_cell, s.readMem_resetKeepingImem,
      s.resetKeepingImem_pc, s.resetKeepingImem_terminated, s.resetKeepingImem_imem⟩
  case discardsPriorState =>
    intro s s' h
    rw [clock_reset, clock_reset, State.resetKeepingImem_congr h]

end Sys2Proof.Machine
end

section
/-! The unused bits of a word (30_encoding.md R77): a word is the concatenation of its fields, and the used bits of a
format are the fields the format has. -/

namespace Sys2Proof

/-- Every word is the concatenation of its four fields (30_encoding.md R71). -/
theorem packFields_fields (w : Word) :
    packFields (opcodeOf w) (bits4 (field1 w)) (bits4 (field2 w)) (bits4 (field3 w)) = w := by
  apply BitVec.eq_of_toNat_eq
  simp only [toNat_packFields, toNat_bits4, opcodeOf, number_ofNumber, opField, field1, field2, field3, nibble_val]
  omega

/-- Every word is the concatenation of its opcode, `F1` and immediate fields (30_encoding.md R71). -/
theorem packImm_fields (w : Word) : packImm (opcodeOf w) (bits4 (field1 w)) (immField w) = w := by
  apply BitVec.eq_of_toNat_eq
  simp only [toNat_packImm, toNat_bits4, opcodeOf, number_ofNumber, opField, field1, nibble_val, immField_toNat]
  omega

/-- A mask that keeps the opcode acts on the other fields one by one. -/
theorem packFields_and (op : Opcode) (f1 f2 f3 m1 m2 m3 : BitVec 4) :
    packFields op f1 f2 f3 &&& (BitVec.allOnes 4 ++ m1 ++ m2 ++ m3) =
      packFields op (f1 &&& m1) (f2 &&& m2) (f3 &&& m3) := by
  rw [packFields, BitVec.and_append, BitVec.and_append, BitVec.and_append, BitVec.and_allOnes]
  rfl

theorem packFields_and_usedBits_n (op : Opcode) (f1 f2 f3 : BitVec 4) :
    packFields op f1 f2 f3 &&& Format.n.usedBits = packFields op 0#4 0#4 0#4 := by
  have h := packFields_and op f1 f2 f3 0#4 0#4 0#4
  rwa [BitVec.and_zero, BitVec.and_zero, BitVec.and_zero] at h

theorem packFields_and_usedBits_r (op : Opcode) (f1 f2 f3 : BitVec 4) :
    packFields op f1 f2 f3 &&& Format.r.usedBits = packFields op f1 0#4 0#4 := by
  have h := packFields_and op f1 f2 f3 (BitVec.allOnes 4) 0#4 0#4
  rwa [BitVec.and_allOnes, BitVec.and_zero, BitVec.and_zero] at h

/-- Formats RR and RW have the same used bits. -/
theorem packFields_and_usedBits_rr (op : Opcode) (f1 f2 f3 : BitVec 4) :
    packFields op f1 f2 f3 &&& Format.rr.usedBits = packFields op f1 f2 0#4 := by
  have h := packFields_and op f1 f2 f3 (BitVec.allOnes 4) (BitVec.allOnes 4) 0#4
  rwa [BitVec.and_allOnes, BitVec.and_allOnes, BitVec.and_zero] at h

/-- Formats RRW and WI use every bit. -/
theorem and_usedBits_rrw (w : Word) : w &&& Format.rrw.usedBits = w := BitVec.and_allOnes

/-- The encoder writes back exactly the used bits of the word the instruction was decoded from. -/
theorem encode_decode (w : Word) : encode (decode w) = w &&& (opcodeOf w).format.usedBits := by
  have hn := packFields_and_usedBits_n (opcodeOf w) (bits4 (field1 w)) (bits4 (field2 w)) (bits4 (field3 w))
  have hr := packFields_and_usedBits_r (opcodeOf w) (bits4 (field1 w)) (bits4 (field2 w)) (bits4 (field3 w))
  have hrr := packFields_and_usedBits_rr (opcodeOf w) (bits4 (field1 w)) (bits4 (field2 w)) (bits4 (field3 w))
  have hfields := packFields_fields w
  have himm := packImm_fields w
  rw [hfields] at hn hr hrr
  rw [decode]
  cases hop : opcodeOf w <;> simp only [encode, Opcode.format] <;> rw [hop] at hn hr hrr hfields himm
  case nop | halt => exact hn.symm
  case jmp => exact hr.symm
  case jip | sto | not | set | lod => exact hrr.symm
  case ist => exact himm.trans (and_usedBits_rrw w).symm
  all_goals exact hfields.trans (and_usedBits_rrw w).symm

/-- A decoded instruction is determined by its canonical word, so by the used bits. -/
theorem decode_eq_of_usedBits {w w' : Word} (hop : opcodeOf w' = opcodeOf w)
    (h : w' &&& (opcodeOf w).format.usedBits = w &&& (opcodeOf w).format.usedBits) : decode w' = decode w := by
  have henc : encode (decode w') = encode (decode w) := by rw [encode_decode, encode_decode, hop, h]
  rw [← decode_encode (decode w'), henc, decode_encode]

/-- Settles O2: `decode_encode`, field by field of each format. -/
theorem decodeOfEncodeIsTheInstruction : Obligations.DecodeOfEncodeIsTheInstruction := decode_encode

/-- Settles O3: encoding clears the unused bits, and the decoder undoes the encoder. -/
theorem unusedBitsAreIgnored : Obligations.UnusedBitsAreIgnored :=
  fun w => ⟨encode_decode w, fun _ => decode_eq_of_usedBits⟩

/-- Settles O1: nine closed words, evaluated. -/
theorem writtenOutWordsDecode : Obligations.WrittenOutWordsDecode := by
  unfold Obligations.WrittenOutWordsDecode
  decide

/-- The second pass rewrites the immediate field of any word and no other field (30_encoding.md R94). -/
theorem Asm.patchWord_eq_packImm (index : Nat) (w : Word) :
    Asm.patchWord index w = packImm (opcodeOf w) (bits4 (field1 w)) (BitVec.ofNat 8 index) := by
  rw [← Asm.patchWord_packImm index _ _ (immField w), packImm_fields]

/-- Settles O49: the three fields of the packed word. -/
theorem labelPatchLeavesOpcodeAndRegister : Obligations.LabelPatchLeavesOpcodeAndRegister := by
  intro index w
  rw [Asm.patchWord_eq_packImm, opField_packImm, field1_packImm, immField_packImm]
  exact ⟨number_ofNumber (opField w), rfl, rfl⟩

end Sys2Proof
end

section
/-! The decoder on a word of each format whose unused bits are any bits (30_encoding.md R77). -/

namespace Sys2Proof

/-- Bits [15:12] alone select the opcode, whatever the twelve bits after them. -/
theorem opcodeOf_append (op : Opcode) (u : BitVec 12) : opcodeOf (bits4 op.number ++ u : Word) = op := by
  have hfield : opField (bits4 op.number ++ u : Word) = op.number := by
    apply Fin.ext
    rw [opField, nibble_val, toNat_append_eq, toNat_bits4]
    omega
  rw [opcodeOf, hfield, ofNumber_number]

theorem decode_nop_append (u : BitVec 12) : decode (0x0#4 ++ u) = .nop := by
  have hop : opcodeOf (0x0#4 ++ u) = .nop := opcodeOf_append .nop u
  rw [decode, hop]

theorem decode_halt_append (u : BitVec 12) : decode (0x1#4 ++ u) = .halt := by
  have hop : opcodeOf (0x1#4 ++ u) = .halt := opcodeOf_append .halt u
  rw [decode, hop]

theorem decode_packImm_jmp (rs1 : Reg) (u : Byte) : decode (packImm .jmp (bits4 rs1) u) = .jmp rs1 := by
  simp only [decode, opcodeOf_packImm, field1_packImm]

/-- The last four bits of a word of format RR or RW do not matter: it decodes to the instruction whose canonical word
has them 0. -/
theorem decode_of_usedBits_rr {i : Instr} {op : Opcode} {f1 f2 u : BitVec 4} {w : Word}
    (h : op.format.usedBits = Format.rr.usedBits) (hi : encode i = packFields op f1 f2 0#4)
    (hw : packFields op f1 f2 u = w) : decode w = i := by
  subst hw
  have hdecode : decode (packFields op f1 f2 u) = decode (packFields op f1 f2 0#4) := by
    apply decode_eq_of_usedBits
    · rw [opcodeOf_packFields, opcodeOf_packFields]
    · rw [opcodeOf_packFields, h, packFields_and_usedBits_rr, packFields_and_usedBits_rr]
  rw [hdecode, ← hi, decode_encode]

end Sys2Proof
end

section
/-! Raw results (40_step_and_flags.md section 2): the byte stored for one and the flags of one, for each way an
instruction computes it. -/

namespace Sys2Proof.Machine

theorem toNat_trunc8 (raw : Int) : ((trunc8 raw).toNat : Int) = raw % 256 := by
  simp only [trunc8, BitVec.toNat_ofNat]
  omega

/-- Truncation keeps the low byte of the two's-complement value. -/
theorem trunc8_eq_ofInt (raw : Int) : trunc8 raw = BitVec.ofInt 8 raw := by
  apply BitVec.eq_of_toNat_eq
  have h := toNat_trunc8 raw
  rw [BitVec.toNat_ofInt]
  omega

theorem trunc8_rawAdd (a b : Byte) : trunc8 (rawAdd a.toNat b.toNat) = a + b := by
  rw [trunc8_eq_ofInt, rawAdd, BitVec.ofInt_add, BitVec.ofInt_natCast, BitVec.ofInt_natCast, BitVec.ofNat_toNat,
    BitVec.ofNat_toNat, BitVec.setWidth_eq, BitVec.setWidth_eq]

theorem trunc8_rawSub (a b : Byte) : trunc8 (rawSub a.toNat b.toNat) = a - b := by
  apply BitVec.eq_of_toNat_eq
  have h := toNat_trunc8 (rawSub a.toNat b.toNat)
  rw [rawSub] at h ⊢
  rw [BitVec.toNat_sub]
  omega

theorem trunc8_rawNot (a : Byte) : trunc8 (rawNot a.toNat) = 255 - a := by
  apply BitVec.eq_of_toNat_eq
  have h := toNat_trunc8 (rawNot a.toNat)
  have h255 : (255 : Byte).toNat = 255 := rfl
  rw [rawNot] at h ⊢
  rw [BitVec.toNat_sub, h255]
  omega

/-- A shift left by 8 or more leaves a multiple of 256. -/
theorem trunc8_rawShl (a : Byte) (b : Nat) : trunc8 (rawShl a.toNat b) = if b < 8 then a <<< b else 0 := by
  have hshift : trunc8 (rawShl a.toNat b) = a <<< b := by
    apply BitVec.eq_of_toNat_eq
    rw [rawShl, trunc8_natCast, BitVec.toNat_ofNat, BitVec.toNat_shiftLeft, Nat.shiftLeft_eq]
  rw [hshift]
  split
  · rfl
  · exact BitVec.shiftLeft_eq_zero (by omega)

/-- A shift right by 8 or more leaves nothing of a byte. -/
theorem rawShr_eq (a : Byte) (b : Nat) : rawShr a.toNat b = ((if b < 8 then a >>> b else 0 : Byte).toNat : Int) := by
  have hshift : rawShr a.toNat b = ((a >>> b).toNat : Int) := by
    rw [rawShr, BitVec.toNat_ushiftRight, Nat.shiftRight_eq_div_pow]
  rw [hshift]
  split
  · rfl
  · rw [BitVec.ushiftRight_eq_zero (by omega)]
    rfl

/-- The shifted byte is 0 exactly when every bit of it is shifted out. -/
theorem shr_eq_zero_iff (a : Byte) (b : Nat) : (if b < 8 then a >>> b else 0) = 0 ↔ a.toNat < 2 ^ b := by
  have h := rawShr_eq a b
  rw [← BitVec.toNat_inj]
  simp only [rawShr] at h
  rw [← Int.natCast_inj.1 h]
  exact Nat.div_eq_zero_iff_lt (by positivity)

/-- The flags of a raw result that is a natural number: N is clear. -/
theorem classify_natCast (n : Nat) : classify (n : Int) = if n = 0 then 1 else if n < 256 then 0 else 4 := by
  split
  · next h => rw [h]; exact classify_zero
  · split
    · exact classify_in_range (by omega) (by omega)
    · exact classify_above (by omega)

theorem classify_rawAdd (a b : Nat) : classify (rawAdd a b) = if a + b = 0 then 1 else if a + b < 256 then 0 else 4 :=
  classify_natCast (a + b)

theorem classify_rawSub (a b : Byte) :
    classify (rawSub a.toNat b.toNat) = if a.toNat = b.toNat then 1 else if a.toNat < b.toNat then 6 else 0 := by
  rw [rawSub]
  split
  · next h => rw [h, Int.sub_self]; exact classify_zero
  · split
    · exact classify_negative (by omega)
    · exact classify_in_range (by omega) (by omega)

theorem classify_rawNot (a : Nat) : classify (rawNot a) = 6 := classify_negative (by rw [rawNot]; omega)

theorem classify_rawShl (a b : Nat) :
    classify (rawShl a b) = if a = 0 then 1 else if a * 2 ^ b < 256 then 0 else 4 := by
  have hzero : a * 2 ^ b = 0 ↔ a = 0 := by simp
  rw [rawShl, classify_natCast, if_congr hzero rfl rfl]

/-- Settles O37: truncation is the remainder by its definition, and the rest is arithmetic of remainders. -/
theorem truncationIsTheRemainderModulo256 : Obligations.TruncationIsTheRemainderModulo256 := by
  intro raw
  have h := toNat_trunc8 raw
  exact ⟨h, fun _ _ => by omega, trunc8_eq_ofInt raw, by decide, by decide, by decide⟩

end Sys2Proof.Machine
end

section
/-! The instructions that write a register (42_alu.md, 43_move.md, 45_memory_access.md): each is an end of step
(`State.retireResult`) of its raw result. -/

namespace Sys2Proof.Machine

/-- Settles O13: the raw result is a natural number, so its flags are those of the sum's range. -/
theorem addStoresTheSumAndItsFlags : Obligations.AddStoresTheSumAndItsFlags :=
  fun rs1 rs2 rd _ =>
    ⟨encodedBy_of_encode rfl (Asm.emitWord_rrw .add rs1 rs2 rd), _, rfl,
      State.retireResult_result (trunc8_rawAdd _ _) (classify_rawAdd _ _)⟩

/-- Settles O14: the raw result is negative exactly when the subtrahend is the larger byte. -/
theorem subStoresTheDifferenceAndItsFlags : Obligations.SubStoresTheDifferenceAndItsFlags :=
  fun rs1 rs2 rd _ =>
    ⟨encodedBy_of_encode rfl (Asm.emitWord_rrw .sub rs1 rs2 rd), _, rfl,
      State.retireResult_result (trunc8_rawSub _ _) (classify_rawSub _ _)⟩

/-- Settles O18: the raw result `-a - 1` is negative for every byte. -/
theorem notStoresTheComplementAndLeavesSix : Obligations.NotStoresTheComplementAndLeavesSix :=
  fun rs1 rd _ =>
    ⟨encodedBy_of_encode rfl (Asm.emitWord_two .not rs1 rd),
      fun _ => decode_of_usedBits_rr (op := .not) rfl rfl rfl, _, rfl,
      State.retireResult_result (trunc8_rawNot _) (classify_rawNot _)⟩

/-- Settles O19: the exact product is classified, its low byte stored. -/
theorem shlShiftsByTheWholeCount : Obligations.ShlShiftsByTheWholeCount :=
  fun rs1 rs2 rd _ =>
    ⟨encodedBy_of_encode rfl (Asm.emitWord_rrw .shl rs1 rs2 rd), _, rfl,
      State.retireResult_result (trunc8_rawShl _ _) (classify_rawShl _ _)⟩

/-- Settles O20: the quotient of a byte is a byte, so Z is its only flag. -/
theorem shrShiftsByTheWholeCount : Obligations.ShrShiftsByTheWholeCount :=
  fun rs1 rs2 rd s =>
    ⟨encodedBy_of_encode rfl (Asm.emitWord_rrw .shr rs1 rs2 rd), _, rfl,
      s.retireResult_byte rd (rawShr_eq _ _) (shr_eq_zero_iff _ _)⟩

/-- Settles O21: a register's value is a byte, so Z is its only flag. -/
theorem setCopiesTheFirstRegisterToTheSecond : Obligations.SetCopiesTheFirstRegisterToTheSecond :=
  fun rs1 rd s =>
    ⟨encodedBy_of_encode rfl (Asm.emitWord_two .set rs1 rd),
      fun _ => decode_of_usedBits_rr (op := .set) rfl rfl rfl, _, rfl,
      s.retireResult_byte rd rfl Iff.rfl⟩

/-- Settles O25: the byte is read in the state before the step, and Z is its only flag. -/
theorem lodLoadsTheAddressedByte : Obligations.LodLoadsTheAddressedByte :=
  fun rs1 rd s =>
    ⟨encodedBy_of_encode rfl (Asm.emitWord_two .lod rs1 rd),
      fun _ => decode_of_usedBits_rr (op := .lod) rfl rfl rfl, _, rfl,
      s.retireResult_byte rd rfl Iff.rfl⟩

end Sys2Proof.Machine
end

section
/-! The instructions that write no register (41_system.md, 44_control.md, 45_memory_access.md). -/

namespace Sys2Proof.Machine

/-- The end of a step that wrote nothing before. -/
theorem State.endStep_cleared (s : State) (target : Index) :
    NoRegisterResult s (s.endStep clearedFlags target) 0 target ∧ SameMemory s (s.endStep clearedFlags target) :=
  ⟨State.endStep_result clearedFlags target rfl rfl rfl, fun a => s.readMem_endStep a clearedFlags target⟩

/-- Settles O11: NOP is the end of a step alone. -/
theorem nopClearsStatusAndAdvances : Obligations.NopClearsStatusAndAdvances :=
  ⟨decode_nop_append, encodedBy_of_encode (i := .nop) rfl rfl, fun s => ⟨_, rfl, s.endStep_cleared s.nextPc⟩⟩

/-- Settles O12: HALT's one write is to the halt bit. -/
theorem haltSetsTheHaltBitOnly : Obligations.HaltSetsTheHaltBitOnly :=
  ⟨decode_halt_append, encodedBy_of_encode (i := .halt) rfl rfl,
    fun s => ⟨{ s with terminated := true }, rfl, rfl, fun _ => rfl, rfl, fun _ => rfl, rfl⟩⟩

/-- Settles O23: JMP is the end of a step at the register's value. -/
theorem jmpJumpsToTheRegister : Obligations.JmpJumpsToTheRegister := by
  intro rs1 s
  have hword : packFields .jmp (bits4 rs1) 0#4 0#4 = packImm .jmp (bits4 rs1) 0 := (packImm_zero _ _).symm
  exact ⟨encodedBy_of_encode hword (Asm.emitWord_one .jmp rs1), decode_packImm_jmp rs1, _, rfl,
    s.endStep_cleared (s.readReg rs1)⟩

/-- Settles O24: the condition is 0 as a number exactly when it is 0 as a byte. -/
theorem jipJumpsWhenTheConditionIsNotZero : Obligations.JipJumpsWhenTheConditionIsNotZero := by
  intro rs1 rs2 s
  have hend := s.endStep_cleared (if s.source rs2 ≠ 0 then s.target rs1 else s.nextPc)
  have htarget : (if s.source rs2 ≠ 0 then s.target rs1 else s.nextPc) =
      if s.readReg rs2 = 0 then s.pc + 1 else s.readReg rs1 := by
    rw [ite_not, if_congr (s.source_eq_zero_iff rs2) rfl rfl]
    rfl
  refine ⟨encodedBy_of_encode rfl (Asm.emitWord_two .jip rs1 rs2),
    fun _ => decode_of_usedBits_rr (op := .jip) rfl rfl rfl, _, rfl, ?_⟩
  rwa [← htarget]

/-- Settles O26: a store, then the end of the step, which reads no memory. -/
theorem stoStoresOneByte : Obligations.StoStoresOneByte := by
  intro rs1 rs2 s
  refine ⟨encodedBy_of_encode rfl (Asm.emitWord_two .sto rs1 rs2),
    fun _ => decode_of_usedBits_rr (op := .sto) rfl rfl rfl, _, rfl,
    State.endStep_result clearedFlags s.nextPc rfl rfl rfl, ?memory⟩
  case memory =>
    rintro a rfl
    refine ⟨?stored, fun b hb => ?other⟩
    case stored => rw [State.readMem_endStep, State.readMem_writeMem, if_pos rfl]
    case other => rw [State.readMem_endStep, State.readMem_writeMem, if_neg hb.symm]

end Sys2Proof.Machine
end

section
/-! Rules about every instruction (40_step_and_flags.md section 3): what is left of a discarded destination, the status
bytes, and the order of a read and the write before it. -/

namespace Sys2Proof

theorem Reg.writable_iff {r : Reg} : r.writable = true ↔ r ≠ Reg.zero ∧ r ≠ Reg.status := by
  simp only [Reg.writable, Bool.and_eq_true, bne_iff_ne]

namespace Machine

/-- Instructions with a destination are ends of step of a raw result that does not depend on the destination. -/
theorem exec_withDest {i : Instr} (hi : i.dest.isSome = true) (s : State) :
    ∃ raw, ∀ rd, exec (i.withDest rd) s = .next (s.retireResult rd raw) := by
  cases i
  case nop | halt | jmp | jip | sto => exact nomatch hi
  all_goals exact ⟨_, fun _ => rfl⟩

/-- A destination that is no general register holds no result (40_step_and_flags.md R131). -/
theorem State.retireResult_discarded (s : State) {rd : Reg} (raw : Int) (hrd : rd.writable = false) :
    NoRegisterResult s (s.retireResult rd raw) (classify raw) (s.pc + 1) := by
  have hresult : RegisterResult s (s.retireResult rd raw) rd (trunc8 raw) (classify raw) :=
    State.retireResult_result rfl rfl
  have hrd : ∀ r : Reg, r ≠ Reg.zero → r ≠ Reg.status → r ≠ rd := by
    rintro r hzero hstatus rfl
    exact nomatch hrd.symm.trans (Reg.writable_iff.2 ⟨hzero, hstatus⟩)
  exact { hresult with others := fun r hzero hstatus => hresult.others r (hrd r hzero hstatus) hzero hstatus }

@[simp] theorem State.retireResult_status (s : State) (rd : Reg) (raw : Int) :
    (s.retireResult rd raw).readReg Reg.status = classify raw := by
  rw [State.readReg_retireResult, if_pos rfl]

@[simp] theorem State.endStep_status (s : State) (flags : Byte) (target : Index) :
    (s.endStep flags target).readReg Reg.status = flags := by
  rw [State.readReg_endStep, if_pos rfl]

theorem State.endStep_zero (s : State) (flags : Byte) (target : Index) :
    (s.endStep flags target).regs[Reg.zero] = 0 := by
  rw [State.endStep_cell]
  rfl

/-- A general register as destination reads the stored byte. -/
theorem State.retireResult_written (s : State) {rd : Reg} (raw : Int) (hrd : rd.writable = true) :
    (s.retireResult rd raw).readReg rd = trunc8 raw := by
  obtain ⟨hzero, hstatus⟩ := Reg.writable_iff.1 hrd
  rw [State.readReg_retireResult, if_neg hstatus, if_neg hzero, if_pos rfl]

/-- Settles O27: the raw result, and so the flags, does not depend on the destination (`exec_withDest`). -/
theorem discardedDestinationLeavesOnlyTheFlags : Obligations.DiscardedDestinationLeavesOnlyTheFlags := by
  intro i rd rd' s hi hrd
  obtain ⟨raw, hexec⟩ := exec_withDest hi s
  refine ⟨_, _, hexec rd, hexec rd', ?_, fun _ => rfl⟩
  rw [State.retireResult_status]
  exact s.retireResult_discarded raw hrd

/-- Every instruction but HALT ends its step (40_step_and_flags.md R128). -/
theorem exec_zero {i : Instr} {s t : State} (hi : i ≠ .halt) (h : exec i s = .next t) : t.regs[Reg.zero] = 0 := by
  obtain ⟨rfl, -⟩ | ⟨rd, raw, -, rfl⟩ | ⟨rs1, rs2, -, rfl⟩ | ⟨-, -, -, target, rfl⟩ := exec_cases h
  · exact absurd rfl hi
  · exact State.retireResult_zero s rd raw
  · exact State.endStep_zero _ clearedFlags s.nextPc
  · exact State.endStep_zero s clearedFlags target

/-- The flags of a byte are Z or none. -/
theorem classify_byte_mem (v : Byte) : classify (v.toNat : Int) ∈ [0, 1] := by
  rw [classify_byte]
  split <;> decide

theorem classify_natCast_mem (n : Nat) : classify (n : Int) ∈ [0, 1, 4] := by
  rw [classify_natCast]
  split
  · decide
  · split <;> decide

theorem classify_rawSub_mem (a b : Byte) : classify (rawSub a.toNat b.toNat) ∈ [0, 1, 6] := by
  rw [classify_rawSub]
  split
  · decide
  · split <;> decide

/-- Settles O29: the status an instruction leaves is the class of its raw result, or 0 where it has none. -/
theorem statusBytesEachInstructionCanLeave : Obligations.StatusBytesEachInstructionCanLeave := by
  intro i s t h
  refine ⟨fun hi => exec_zero hi h, ?_⟩
  cases i <;> cases h
  case halt => exact List.mem_singleton_self _
  case nop | jmp | jip | sto => exact List.mem_singleton.2 (State.endStep_status _ _ _)
  all_goals rw [State.retireResult_status]
  case add => exact classify_natCast_mem (s.source _ + s.source _)
  case shl => exact classify_natCast_mem (s.source _ * 2 ^ s.source _)
  case sub => exact classify_rawSub_mem (s.readReg _) (s.readReg _)
  case not => exact List.mem_singleton.2 (classify_rawNot _)
  case and => exact rawAnd_toNat _ _ ▸ classify_byte_mem _
  case or => exact rawOr_toNat _ _ ▸ classify_byte_mem _
  case xor => exact rawXor_toNat _ _ ▸ classify_byte_mem _
  case shr => exact rawShr_eq (s.readReg _) _ ▸ classify_byte_mem _
  case set => exact classify_byte_mem (s.readReg _)
  case ist imm => exact classify_byte_mem imm
  case lod => exact classify_byte_mem (s.readMem _)

/-- Settles O34: the load reads the memory the store left. -/
theorem loadAfterStoreReturnsTheStoredByte : Obligations.LoadAfterStoreReturnsTheStoredByte := by
  intro rs1 rs2 ra rd s t h hrd
  have hmem : ∀ b, t.readMem b = if s.readReg rs1 = b then s.readReg rs2 else s.readMem b := by
    cases h
    exact fun b => s.readMem_writeMem (s.readReg rs1) b (s.readReg rs2)
  have hload : (t.retireResult rd (t.loaded ra)).readReg rd = t.readMem (t.readReg ra) :=
    (t.retireResult_written _ hrd).trans (trunc8_toNat _)
  refine ⟨_, rfl, fun heq => ?same, fun hne => ?other⟩
  case same => rw [hload, hmem, if_pos heq.symm]
  case other => rw [hload, hmem, if_neg (Ne.symm hne)]

/-- The flags of a sum are 0 exactly where it is neither 0 nor out of range. -/
theorem classify_rawAdd_ne_zero_iff (a b : Nat) : classify (rawAdd a b) ≠ 0 ↔ a + b = 0 ∨ 256 ≤ a + b := by
  rw [classify_rawAdd]
  split
  · next h => simp [h]
  · split
    · next hne hlt => simp; omega
    · next hne hge => simp; omega

/-- Settles O35: JIP reads the flags ADD left, and its own end of step clears them. -/
theorem branchOnStatusTestsThePreviousInstruction : Obligations.BranchOnStatusTestsThePreviousInstruction := by
  intro rs1 rs2 rd rt s t h
  obtain ⟨u, hu⟩ := exec_answers_next (.jip rt Reg.status) t
  have hstatus : u.readReg Reg.status = 0 := by
    cases hu
    exact State.endStep_status _ _ _
  refine ⟨u, hu, hstatus, ?_⟩
  rw [exec_jip_pc hu]
  cases h
  rw [State.retireResult_status, if_congr (classify_rawAdd_ne_zero_iff _ _) rfl rfl]
  rfl

end Machine
end Sys2Proof
end

section
/-! What a command can do to the state, stated once, and what changes each part of it (10_state.md R22, R27, R29,
R30). -/

namespace Sys2Proof.Machine

/-- A successful command left the state alone, or was RESET, or was a STEP that executed the fetched word. -/
theorem clock_cases {c : Command} {s t : State} {r : Result} (h : clock c s = .ok (t, r)) :
    t = s ∨ (c = .reset ∧ t = s.resetKeepingImem) ∨
      (c = .step ∧ s.terminated = false ∧ ∃ w, s.imem[s.pc.toNat]? = some w ∧ exec (decode w) s = .next t) := by
  cases c with
  | idle => cases h; exact .inl rfl
  | reset => cases h; exact .inr (.inl ⟨rfl, rfl⟩)
  | step =>
    simp only [clock] at h
    split at h
    · next hstep =>
      cases h
      obtain ⟨-, heq⟩ | ⟨hrun, -, hexec⟩ := step_cases hstep
      · exact .inl heq
      · exact .inr (.inr ⟨rfl, hrun, hexec⟩)
    · cases h; exact .inl rfl
    · exact nomatch h

/-- An instruction changes no general register but its destination. -/
theorem dest_of_exec_readReg_ne {i : Instr} {s t : State} {r : Reg} (h : exec i s = .next t) (hr : r.writable = true)
    (hne : t.readReg r ≠ s.readReg r) : i.dest = some r := by
  obtain ⟨hzero, hstatus⟩ := Reg.writable_iff.1 hr
  obtain ⟨-, rfl⟩ | ⟨rd, raw, hdest, rfl⟩ | ⟨rs1, rs2, -, rfl⟩ | ⟨-, -, -, target, rfl⟩ := exec_cases h
  · exact absurd rfl hne
  · rw [State.readReg_retireResult, if_neg hstatus, if_neg hzero] at hne
    by_cases hrd : rd = r
    · rw [hdest, hrd]
    · exact absurd (if_neg hrd) hne
  · rw [State.readReg_endStep, if_neg hstatus, if_neg hzero] at hne
    exact absurd rfl hne
  · rw [State.readReg_endStep, if_neg hstatus, if_neg hzero] at hne
    exact absurd rfl hne

/-- Settles O30: the frame of a command is that of the instruction it executes, and the stored byte depends on the
destination for no instruction. -/
theorem generalRegistersChangeOnlyAsDestinations : Obligations.GeneralRegistersChangeOnlyAsDestinations := by
  refine ⟨fun c s t _ r h hr hne => ?frame, fun i r r' s hi hr hr' => ?alike⟩
  case frame =>
    obtain rfl | ⟨hc, -⟩ | ⟨hc, hrun, w, hw, hexec⟩ := clock_cases h
    · exact absurd rfl hne
    · exact .inl hc
    · exact .inr ⟨hc, hrun, w, hw, dest_of_exec_readReg_ne hexec hr hne⟩
  case alike =>
    obtain ⟨raw, hexec⟩ := exec_withDest hi s
    exact ⟨_, _, hexec r, hexec r', (s.retireResult_written raw hr).trans (s.retireResult_written raw hr').symm⟩

/-- An instruction that changes a byte of data memory is a STO to it. -/
theorem sto_of_exec_readMem_ne {i : Instr} {s t : State} {a : Byte} (h : exec i s = .next t)
    (hne : t.readMem a ≠ s.readMem a) :
    ∃ rs1 rs2, i = .sto rs1 rs2 ∧ s.readReg rs1 = a ∧ t.readMem a = s.readReg rs2 := by
  obtain ⟨-, rfl⟩ | ⟨rd, raw, -, rfl⟩ | ⟨rs1, rs2, hi, rfl⟩ | ⟨-, -, -, target, rfl⟩ := exec_cases h
  · exact absurd rfl hne
  · exact absurd rfl hne
  · rw [State.readMem_endStep, State.readMem_writeMem] at hne ⊢
    by_cases ha : s.address rs1 = a
    · exact ⟨rs1, rs2, hi, ha, if_pos ha⟩
    · exact absurd (if_neg ha) hne
  · exact absurd rfl hne

/-- Settles O31: the frame of a command is that of the instruction it executes. -/
theorem dataMemoryChangesOnlyByStoAndReset : Obligations.DataMemoryChangesOnlyByStoAndReset := by
  intro c s t _ a h hne
  obtain rfl | ⟨hc, rfl⟩ | ⟨hc, hrun, w, hw, hexec⟩ := clock_cases h
  · exact absurd rfl hne
  · exact .inl ⟨hc, s.readMem_resetKeepingImem a⟩
  · obtain ⟨rs1, rs2, hi, haddr, hread⟩ := sto_of_exec_readMem_ne hexec hne
    exact .inr ⟨hc, hrun, w, rs1, rs2, hw, hi, haddr, hread⟩

theorem clock_imem {c : Command} {s t : State} {r : Result} (h : clock c s = .ok (t, r)) : t.imem = s.imem := by
  obtain rfl | ⟨-, rfl⟩ | ⟨-, -, w, -, hexec⟩ := clock_cases h
  · rfl
  · exact s.resetKeepingImem_imem
  · exact exec_imem hexec

/-- What a successful sequence of at least one command did. -/
theorem clocks_cons_ok {c : Command} {cs : List Command} {s u : State} {rs : List Result}
    (h : clocks (c :: cs) s = .ok (u, rs)) :
    ∃ t r rs', clock c s = .ok (t, r) ∧ clocks cs t = .ok (u, rs') ∧ rs = r :: rs' := by
  rw [clocks] at h
  split at h
  · exact nomatch h
  next t r hc =>
    split at h
    · exact nomatch h
    next u' rs' hcs =>
      cases h
      exact ⟨t, r, rs', hc, hcs, rfl⟩

/-- Settles O32, by induction on the commands. -/
theorem instructionMemoryNeverChanges : Obligations.InstructionMemoryNeverChanges := by
  intro cs
  induction cs with
  | nil =>
    intro s t rs h
    cases h
    rfl
  | cons c cs ih =>
    intro s t rs h
    obtain ⟨u, r, rs', hc, hcs, -⟩ := clocks_cons_ok h
    exact (ih u t rs' hcs).trans (clock_imem hc)

/-- Below 255 the 8-bit program counter has a successor (10_state.md R27). -/
theorem toNat_index_succ {pc : Index} (h : pc.toNat < 255) : (pc + 1).toNat = pc.toNat + 1 := by
  rw [BitVec.toNat_add]
  exact Nat.mod_eq_of_lt (Nat.succ_lt_succ h)

/-- Settles O33: the program counter of a step that executes is an index of an instruction memory of at most 255
words. -/
theorem programCounterNeverWraps : Obligations.ProgramCounterNeverWraps := by
  intro s t h hs
  obtain ⟨hterm, -⟩ | ⟨-, hlen, w, hw, hexec⟩ := step_cases h
  · exact nomatch hs.symm.trans hterm
  have hpc : s.pc.toNat < 255 := Nat.lt_of_lt_of_le (List.getElem?_eq_some_iff.1 hw).1 hlen
  have hnext := toNat_index_succ hpc
  refine ⟨w, hw, ?_⟩
  cases hi : decode w with rw [hi] at hexec
  | jip rs1 rs2 =>
    have htarget := exec_jip_pc hexec
    dsimp only
    split
    · next hc => rw [htarget, if_pos hc]
    · next hc => rw [htarget, if_neg hc, hnext]
  | halt => cases hexec; rfl
  | jmp rs1 => cases hexec; rfl
  | _ => cases hexec; exact hnext

end Sys2Proof.Machine
end

section
/-! The invariant of every reachable state (10_state.md R31): it holds at construction, every command keeps it, and in a
state that meets it no command is refused. -/

namespace Sys2Proof.Machine

/-- Construction refuses an array only for its length (10_state.md R30). -/
theorem construct_of_le {words : List Word} (h : words.length ≤ 255) :
    State.construct words = .next { State.reset with imem := words } :=
  if_pos ((programFits_iff words).2 h)

theorem construct_of_gt {words : List Word} (h : 255 < words.length) :
    State.construct words = .refused .imemTooLong :=
  if_neg fun hfits => Nat.not_le.2 h ((programFits_iff words).1 hfits)

/-- A constructed machine is the one RESET would give. -/
theorem construct_cases {words : List Word} {s : State} (h : State.construct words = .next s) :
    programFits words = true ∧ s = { State.reset with imem := words } := by
  rw [State.construct] at h
  split at h
  · next hfits => cases h; exact ⟨hfits, rfl⟩
  · exact nomatch h

/-- Settles O39: construction is the reset state with the array, so RESET leaves it as it is. -/
theorem constructionGivesTheResetStateOrRefuses : Obligations.ConstructionGivesTheResetStateOrRefuses := by
  refine fun words =>
    ⟨fun h => ⟨_, construct_of_le h, rfl, ?registers, ?memory, rfl, rfl, clock_reset _⟩, construct_of_gt⟩
  case registers => exact State.resetKeepingImem_cell { State.reset with imem := words }
  case memory => exact State.readMem_resetKeepingImem { State.reset with imem := words }

/-- RESET answers a state that meets the invariant as soon as the instruction memory fits. -/
theorem State.resetKeepingImem_inv {s : State} (h : programFits s.imem = true) : s.resetKeepingImem.Inv where
  memory := Memory.wf_nil
  zero := s.resetKeepingImem_cell Reg.zero
  status := by rw [State.resetKeepingImem_cell]; rfl
  imem := h

/-- Settles O40: State.reset is what RESET answers in it. -/
theorem resetStateMeetsTheInvariant : Obligations.ResetStateMeetsTheInvariant :=
  State.resetKeepingImem_inv (s := State.reset) rfl

theorem State.endStep_status_cell (s : State) (flags : Byte) (target : Index) :
    (s.endStep flags target).regs[Reg.status] = flags := by
  rw [State.endStep_cell, if_pos rfl]

/-- The end of a step meets the invariant where its flags are legal, whatever the registers were. -/
theorem State.endStep_inv {s : State} {flags : Byte} (target : Index) (hmem : s.mem.wf = true)
    (hflags : legalStatus flags = true) (hfits : programFits s.imem = true) : (s.endStep flags target).Inv where
  memory := hmem
  zero := s.endStep_zero flags target
  status := by rw [State.endStep_status_cell]; exact hflags
  imem := hfits

theorem exec_inv {i : Instr} {s t : State} (hs : s.Inv) (h : exec i s = .next t) : t.Inv := by
  obtain ⟨-, rfl⟩ | ⟨rd, raw, -, rfl⟩ | ⟨rs1, rs2, -, rfl⟩ | ⟨-, -, -, target, rfl⟩ := exec_cases h
  · exact { hs with }
  · exact State.endStep_inv s.nextPc hs.memory (classify_legal raw) hs.imem
  · exact State.endStep_inv s.nextPc (State.writeMem_wf _ _ hs.memory) rfl hs.imem
  · exact State.endStep_inv target hs.memory rfl hs.imem

theorem step_inv {s t : State} (hs : s.Inv) (h : step s = .next t) : t.Inv := by
  obtain ⟨-, rfl⟩ | ⟨-, -, w, -, hexec⟩ := step_cases h
  · exact hs
  · exact exec_inv hs hexec

theorem clock_inv {c : Command} {s t : State} {r : Result} (hs : s.Inv) (h : clock c s = .ok (t, r)) : t.Inv := by
  obtain rfl | ⟨-, rfl⟩ | ⟨-, -, w, -, hexec⟩ := clock_cases h
  · exact hs
  · exact State.resetKeepingImem_inv hs.imem
  · exact exec_inv hs hexec

/-- Settles O41: every end of a step meets the invariant (`State.endStep_inv`), HALT writes none of its parts, and RESET
keeps the instruction memory. -/
theorem everyStepKeepsTheInvariant : Obligations.EveryStepKeepsTheInvariant :=
  ⟨fun _ _ => step_inv, fun _ _ _ _ => clock_inv⟩

/-- An in-bounds step of a machine that runs gives OK and the state of the fetched instruction. -/
theorem clock_step_of_fetched {s : State} (hfits : s.imem.length ≤ 255) (hs : s.terminated = false)
    (hpc : s.pc.toNat < s.imem.length) :
    ∃ w t, s.imem[s.pc.toNat]? = some w ∧ exec (decode w) s = .next t ∧ clock .step s = .ok (t, .ok) := by
  have hw : s.imem[s.pc.toNat]? = some s.imem[s.pc.toNat] := List.getElem?_eq_getElem hpc
  obtain ⟨t, ht⟩ := exec_answers_next (decode s.imem[s.pc.toNat]) s
  refine ⟨_, t, hw, ht, ?_⟩
  simp only [clock, (step_of_fetched hs hfits hw).trans ht, hs]
  rfl

/-- Settles O8: one lemma per outcome. -/
theorem stepOutcomesInOrder : Obligations.StepOutcomesInOrder :=
  fun s hfits =>
    ⟨clock_step_of_terminated, fun hs hpc => (outOfBounds_step_and_clock hs hpc).2,
      clock_step_of_fetched ((programFits_iff s.imem).1 hfits)⟩

/-- Only an instruction memory that does not fit is refused, and no machine that meets the invariant has one. -/
theorem clock_answers {s : State} (hfits : programFits s.imem = true) (c : Command) :
    ∃ t r, clock c s = .ok (t, r) := by
  obtain ⟨hterm, hout, hrun⟩ := stepOutcomesInOrder s hfits
  cases c with
  | idle => exact ⟨s, .none, rfl⟩
  | reset => exact ⟨_, .none, clock_reset s⟩
  | step =>
    cases hs : s.terminated with
    | true => exact ⟨s, .noop, hterm hs⟩
    | false =>
      by_cases hpc : s.imem.length ≤ s.pc.toNat
      · exact ⟨s, .errOob, hout hs hpc⟩
      · obtain ⟨w, t, -, -, hclock⟩ := hrun hs (Nat.lt_of_not_le hpc)
        exact ⟨t, .ok, hclock⟩

/-- The upper five bits of a legal status byte are 0. -/
theorem legalStatus_div {b : Byte} (h : legalStatus b = true) : b.toNat / 8 = 0 := by
  simp only [legalStatus, Bool.or_eq_true, decide_eq_true_eq] at h
  obtain ((rfl | rfl) | rfl) | rfl := h <;> rfl

theorem reachable_inv {words : List Word} {s : State} (h : Reachable words s) : s.Inv ∧ s.imem = words := by
  induction h with
  | construct h =>
    obtain ⟨hfits, rfl⟩ := construct_cases h
    exact ⟨State.resetKeepingImem_inv (s := { State.reset with imem := words }) hfits, rfl⟩
  | clock _ hclock ih =>
    obtain ⟨hinv, himem⟩ := ih
    exact ⟨clock_inv hinv hclock, (clock_imem hclock).trans himem⟩

/-- Settles O42: the invariant by induction on the commands, the rest read off it. -/
theorem reachableStatesMeetTheInvariant : Obligations.ReachableStatesMeetTheInvariant := by
  intro words s h
  obtain ⟨hinv, himem⟩ := reachable_inv h
  exact ⟨hinv, himem, hinv.zero, legalStatus_div hinv.status, clock_answers hinv.imem⟩

end Sys2Proof.Machine
end

section
/-! The canonical form of a data memory determines it: below the first listed address everything reads as after reset,
and a listed byte does not. -/

namespace Sys2Proof.Machine

theorem Memory.risingFrom_cons_iff {lo k : Nat} {v : Byte} {rest : Memory} :
    Memory.risingFrom lo ((k, v) :: rest) = true ↔
      lo ≤ k ∧ k < 256 ∧ v ≠ Config.resetByte ∧ Memory.risingFrom (k + 1) rest = true := by
  simp only [Memory.risingFrom, Bool.and_eq_true, decide_eq_true_eq, and_assoc]

theorem Memory.read_cons_self (k : Nat) (v : Byte) (rest : Memory) : Memory.read ((k, v) :: rest) k = v := if_pos rfl

theorem Memory.read_cons_ne {k a : Nat} (v : Byte) (rest : Memory) (h : k ≠ a) :
    Memory.read ((k, v) :: rest) a = rest.read a := if_neg h

theorem Memory.read_below {m : Memory} {lo a : Nat} (h : Memory.risingFrom lo m = true) (ha : a < lo) :
    m.read a = Config.resetByte := by
  induction m generalizing lo with
  | nil => rfl
  | cons p rest ih =>
    obtain ⟨k, v⟩ := p
    obtain ⟨hlo, -, -, hrest⟩ := Memory.risingFrom_cons_iff.1 h
    rw [Memory.read_cons_ne v rest (by omega)]
    exact ih hrest (by omega)

/-- The first listed address is the first that does not read as after reset. -/
theorem Memory.head_le_of_read {lo k a : Nat} {v : Byte} {rest : Memory}
    (h : Memory.risingFrom lo ((k, v) :: rest) = true) (ha : Memory.read ((k, v) :: rest) a ≠ Config.resetByte) :
    k ≤ a := by
  obtain ⟨-, hk, hv, hrest⟩ := Memory.risingFrom_cons_iff.1 h
  have hself : Memory.risingFrom k ((k, v) :: rest) = true :=
    Memory.risingFrom_cons_iff.2 ⟨Nat.le_refl k, hk, hv, hrest⟩
  by_contra hlt
  exact ha (Memory.read_below hself (Nat.lt_of_not_le hlt))

/-- A memory that reads as after reset everywhere lists nothing. -/
theorem Memory.eq_nil_of_read {m : Memory} {lo : Nat} (h : Memory.risingFrom lo m = true)
    (hread : ∀ a, a < 256 → m.read a = Config.resetByte) : m = [] := by
  cases m with
  | nil => rfl
  | cons p rest =>
    obtain ⟨k, v⟩ := p
    obtain ⟨-, hk, hv, -⟩ := Memory.risingFrom_cons_iff.1 h
    exact absurd ((Memory.read_cons_self k v rest).symm.trans (hread k hk)) hv

theorem Memory.ext_of_risingFrom {m m' : Memory} {lo : Nat} (h : Memory.risingFrom lo m = true)
    (h' : Memory.risingFrom lo m' = true) (hread : ∀ a, a < 256 → m.read a = m'.read a) : m = m' := by
  induction m generalizing m' lo with
  | nil => exact (Memory.eq_nil_of_read h' fun a ha => (hread a ha).symm).symm
  | cons p rest ih =>
    cases m' with
    | nil => exact Memory.eq_nil_of_read h hread
    | cons p' rest' =>
      obtain ⟨k, v⟩ := p
      obtain ⟨k', v'⟩ := p'
      obtain ⟨-, hk, hv, hrest⟩ := Memory.risingFrom_cons_iff.1 h
      obtain ⟨-, hk', hv', hrest'⟩ := Memory.risingFrom_cons_iff.1 h'
      have hkk' : k = k' := by
        apply Nat.le_antisymm
        · apply Memory.head_le_of_read h
          rwa [hread k' hk', Memory.read_cons_self]
        · apply Memory.head_le_of_read h'
          rwa [← hread k hk, Memory.read_cons_self]
      subst hkk'
      have hvv' : v = v' := by simpa only [Memory.read_cons_self] using hread k hk
      subst hvv'
      rw [ih hrest hrest' fun a ha => ?_]
      by_cases hka : k = a
      · rw [Memory.read_below hrest (by omega), Memory.read_below hrest' (by omega)]
      · simpa only [Memory.read_cons_ne v _ hka] using hread a ha

/-- Settles O43: the 8-bit addresses are the 256 addresses a canonical memory can list. -/
theorem canonicalMemoriesThatReadAlikeAreEqual : Obligations.CanonicalMemoriesThatReadAlikeAreEqual := by
  intro m m' h h' hread
  refine Memory.ext_of_risingFrom h h' fun a ha => ?_
  have hmod : a % 256 = a := Nat.mod_eq_of_lt ha
  simpa [hmod] using hread (BitVec.ofNat 8 a)

end Sys2Proof.Machine
end

section
/-! Runs (60_exceptions.md R216, 70_reset_and_hazards.md R233): an ended run and a faulted run stay as they are. -/

namespace Sys2Proof.Machine

theorem runFor_of_terminated {s : State} (n : Nat) (h : s.terminated = true) : runFor n s = .ended s := by
  cases n <;> rw [runFor, if_pos h]

/-- A step of a run that is not over, by what the step answers. -/
theorem runFor_succ_of_next {s t : State} (n : Nat) (hs : s.terminated = false) (h : step s = .next t) :
    runFor (n + 1) s = runFor n t := by
  simp only [runFor, hs, h, Bool.false_eq_true, if_false]

theorem runFor_succ_of_fault {s : State} {r : Fault} (n : Nat) (hs : s.terminated = false) (h : step s = .fault r) :
    runFor (n + 1) s = .faulted r s := by
  simp only [runFor, hs, h, Bool.false_eq_true, if_false]

theorem runFor_succ_of_refused {s : State} {r : Refusal} (n : Nat) (hs : s.terminated = false)
    (h : step s = .refused r) : runFor (n + 1) s = .refused r := by
  simp only [runFor, hs, h, Bool.false_eq_true, if_false]

/-- A run that is over stays as it is however many more steps it is granted. -/
theorem runFor_add {n : Nat} {s : State} {status : RunStatus} (k : Nat) (h : runFor n s = status)
    (hover : ∀ u, status ≠ .going u) : runFor (n + k) s = status := by
  subst h
  induction n generalizing s with
  | zero =>
    cases hs : s.terminated with
    | true => rw [runFor_of_terminated _ hs, runFor_of_terminated _ hs]
    | false => exact absurd (by rw [runFor, hs, if_neg Bool.false_ne_true]) (hover s)
  | succ n ih =>
    rw [Nat.succ_add]
    cases hs : s.terminated with
    | true => rw [runFor_of_terminated _ hs, runFor_of_terminated _ hs]
    | false =>
      cases hstep : step s with
      | next t =>
        rw [runFor_succ_of_next _ hs hstep] at hover
        rw [runFor_succ_of_next _ hs hstep, runFor_succ_of_next _ hs hstep, ih hover]
      | fault r => rw [runFor_succ_of_fault _ hs hstep, runFor_succ_of_fault _ hs hstep]
      | refused r => rw [runFor_succ_of_refused _ hs hstep, runFor_succ_of_refused _ hs hstep]

/-- What stopped a run: the halt bit of the state it ended in, or the step of the state it faulted in. -/
def RunStatus.Stopped : RunStatus → Prop
  | .ended t => t.terminated = true
  | .faulted r t => step t = .fault r
  | .going _ => True
  | .refused _ => True

theorem runFor_stopped (n : Nat) (s : State) : (runFor n s).Stopped := by
  induction n generalizing s with
  | zero =>
    cases hs : s.terminated with
    | true => exact runFor_of_terminated 0 hs ▸ hs
    | false =>
      rw [runFor, hs, if_neg Bool.false_ne_true]
      trivial
  | succ n ih =>
    cases hs : s.terminated with
    | true => exact runFor_of_terminated (n + 1) hs ▸ hs
    | false =>
      cases hstep : step s with
      | next t => exact runFor_succ_of_next n hs hstep ▸ ih t
      | fault r => exact runFor_succ_of_fault n hs hstep ▸ hstep
      | refused r =>
        rw [runFor_succ_of_refused n hs hstep]
        trivial

/-- Settles O44: more steps do not change a run that is over, and what stopped it stops it again. -/
theorem endedAndFaultedRunsAreFinal : Obligations.EndedAndFaultedRunsAreFinal := by
  intro n k s t
  have hstopped := runFor_stopped n s
  refine ⟨fun h => ?ended, fun r h => ?faulted⟩ <;> rw [h] at hstopped
  case ended => exact ⟨runFor_add k h nofun, hstopped, step_of_terminated hstopped⟩
  case faulted => exact ⟨runFor_add k h nofun, hstopped⟩

/-- The one fault of a step: the program counter of a machine that runs is out of bounds. -/
theorem step_fault_cases {s : State} {r : Fault} (h : step s = .fault r) :
    s.terminated = false ∧ s.imem.length ≤ s.pc.toNat := by
  unfold step at h
  split at h
  · exact nomatch h
  next hs =>
    split at h
    · exact nomatch h
    split at h
    · next hfetch => exact ⟨by simpa using hs, List.getElem?_eq_none_iff.1 hfetch⟩
    · next w _ =>
      obtain ⟨t, ht⟩ := exec_answers_next (decode w) s
      exact nomatch ht.symm.trans h

/-- ERR_OOB is the result of a fault alone, and a fault changes nothing (60_exceptions.md R215). -/
theorem clock_step_errOob {s t : State} (h : clock .step s = .ok (t, .errOob)) :
    t = s ∧ step s = .fault .outOfBounds := by
  simp only [clock] at h
  split at h
  · split at h <;> exact nomatch h
  · next hfault => cases h; exact ⟨rfl, hfault⟩
  · exact nomatch h

theorem clocks_cons {c : Command} {cs : List Command} {s t u : State} {r : Result} {rs : List Result}
    (h : clock c s = .ok (t, r)) (h' : clocks cs t = .ok (u, rs)) : clocks (c :: cs) s = .ok (u, r :: rs) := by
  simp only [clocks, h, h']

/-- A step that gives a result in the state it started from gives it again any number of times. -/
theorem clocks_replicate {c : Command} {s : State} {r : Result} (h : clock c s = .ok (s, r)) (n : Nat) :
    clocks (List.replicate n c) s = .ok (s, List.replicate n r) := by
  induction n with
  | zero => rfl
  | succ n ih => exact clocks_cons h ih

/-- Settles O9: the error leaves the state it is raised in, and RESET sets the program counter to 0, in bounds of an
instruction memory that is not empty. -/
theorem executionErrorRepeatsUntilReset : Obligations.ExecutionErrorRepeatsUntilReset := by
  intro s t h
  obtain ⟨rfl, hfault⟩ := clock_step_errOob h
  obtain ⟨-, hpc⟩ := step_fault_cases hfault
  refine ⟨rfl, clocks_replicate h, fun hne => ?_⟩
  have hfits : t.imem.length ≤ 255 := hpc.trans (Nat.le_of_lt_succ t.pc.isLt)
  obtain ⟨w, v, -, -, hv⟩ := clock_step_of_fetched (s := t.resetKeepingImem) hfits rfl (List.length_pos_iff.2 hne)
  exact ⟨_, v, clock_reset t, hv⟩

end Sys2Proof.Machine
end

section
/-! Placing a word at the program counter (log entry 5): where it lands, and what of the instruction memory stays. -/

namespace Sys2Proof.Machine

/-- Where `State.placeAtPc` puts the word. -/
def State.placeIndex (s : State) : Index := if s.pc.toNat < Config.maxWords then s.pc else Config.entryPoint

theorem State.placeIndex_lt (s : State) : s.placeIndex.toNat < 255 := by
  rw [State.placeIndex]
  split
  · next h => exact h
  · decide

theorem State.placeIndex_of_lt {s : State} (h : s.pc.toNat < 255) : s.placeIndex = s.pc := if_pos h

theorem State.placeAtPc_pc (s : State) (w : Word) : (s.placeAtPc w).pc = s.placeIndex := rfl

theorem State.placeAtPc_imem (s : State) (w : Word) :
    (s.placeAtPc w).imem =
      (s.imem.take 255 ++ List.replicate (s.placeIndex.toNat + 1 - (s.imem.take 255).length) 0#16).set
        s.placeIndex.toNat w := rfl

theorem State.placeAtPc_imem_length (s : State) (w : Word) :
    (s.placeAtPc w).imem.length = max (min 255 s.imem.length) (s.placeIndex.toNat + 1) := by
  rw [State.placeAtPc_imem, List.length_set, List.length_append, List.length_replicate, List.length_take]
  omega

theorem State.placeAtPc_fetch (s : State) (w : Word) :
    (s.placeAtPc w).imem[(s.placeAtPc w).pc.toNat]? = some w := by
  have hlen := s.placeAtPc_imem_length w
  rw [State.placeAtPc_imem, List.length_set] at hlen
  rw [State.placeAtPc_pc, State.placeAtPc_imem, List.getElem?_set_self (by omega)]

/-- The words of an instruction memory that fits stay where they are, the placed one apart. -/
theorem State.placeAtPc_getElem? {s : State} (w : Word) {k : Nat} (hfits : s.imem.length ≤ 255)
    (hk : k < s.imem.length) (hne : k ≠ s.placeIndex.toNat) : (s.placeAtPc w).imem[k]? = s.imem[k]? := by
  rw [State.placeAtPc_imem, List.take_of_length_le hfits, List.getElem?_set_ne hne.symm, List.getElem?_append_left hk]

theorem State.withFetchWord_eq (s : State) {w : Nat} (hw : w < 2 ^ 16) :
    s.withFetchWord 16 w = s.placeAtPc (BitVec.ofNat 16 w) := by
  rw [State.withFetchWord, Nat.mod_eq_of_lt hw]

theorem decodeTableWord_16 {w : Nat} (hw : w < 2 ^ 16) : decodeTableWord 16 w = some (decode (BitVec.ofNat 16 w)) := by
  rw [decodeTableWord, if_pos (Nat.le_refl 16), Nat.mod_eq_of_lt hw]

/-- Settles O10: the word is fetched from where it was placed, in an instruction memory of at most 255 words. -/
theorem placedWordIsTheOneExecuted : Obligations.PlacedWordIsTheOneExecuted := by
  intro s w hw
  rw [s.withFetchWord_eq hw]
  have hfits : (s.placeAtPc (BitVec.ofNat 16 w)).imem.length ≤ 255 := by
    have := s.placeIndex_lt
    rw [State.placeAtPc_imem_length]
    omega
  refine ⟨step_of_fetched rfl hfits (s.placeAtPc_fetch _), decodeTableWord_16 hw, rfl, rfl, State.placeIndex_of_lt,
    fun hs k hk hne hpc => ?kept⟩
  case kept => exact State.placeAtPc_getElem? _ ((programFits_iff s.imem).1 hs) hk (State.placeIndex_of_lt hpc ▸ hne)

end Sys2Proof.Machine
end

section
/-! The assembler's arguments (30_encoding.md R91, R92): what each kind accepts, and what it is encoded as. -/

namespace Sys2Proof.Asm

theorem registerNamed_of_not_mem {name : List Char} (h : name ∉ registerNames.toList) : registerNamed name = none := by
  refine List.find?_eq_none.2 fun r _ heq => h ?_
  rw [← of_decide_eq_true heq]
  exact Vector.mem_toList_iff.2 (Vector.getElem_mem r.isLt)

theorem parseReg_of_not_mem {name : List Char} (sp : Span) (h : name ∉ registerNames.toList) :
    parseReg ⟨.identifier name, sp⟩ = .error ⟨.unknownRegister, sp⟩ := by
  simp only [parseReg, registerNamed_of_not_mem h]

theorem parseReg_of_not_identifier {t : Token} (h : ∀ name, t.kind ≠ .identifier name) :
    parseReg t = .error ⟨.missingRegister, t.span⟩ := by
  obtain ⟨kind, sp⟩ := t
  cases kind with
  | identifier name => exact absurd rfl (h name)
  | _ => rfl

/-- Both kinds of register argument reject what is no register. -/
theorem parseArg_of_parseReg_error {k : ArgKind} {t : Token} {e : Error} (hk : k ≠ .num) (h : parseReg t = .error e) :
    parseArg k t = .error e := by
  cases k with
  | num => exact absurd rfl hk
  | _ => simp only [parseArg, h]

theorem parseArg_reg_registerName (r : Reg) (sp : Span) :
    parseArg .reg ⟨.identifier registerNames[r], sp⟩ = .ok (.reg r) := by
  simp only [parseArg, parseReg_registerName]

theorem parseArg_writereg_of_writable {r : Reg} (sp : Span) (h : r.writable = true) :
    parseArg .writereg ⟨.identifier registerNames[r], sp⟩ = .ok (.reg r) := by
  simp only [parseArg, parseReg_registerName, h]
  rfl

theorem parseArg_num_of_le {v : Nat} (sp : Span) (h : v ≤ 255) :
    parseArg .num ⟨.number v, sp⟩ = .ok (.imm (BitVec.ofNat 8 v)) := if_pos h

theorem parseArg_num_of_missing {t : Token} (hnum : ∀ v, t.kind ≠ .number v)
    (hname : ∀ name, t.kind ≠ .identifier name) :
    parseArg .num t = .error ⟨.missingNumberOrLabel, t.span⟩ := by
  obtain ⟨kind, sp⟩ := t
  cases kind with
  | number v => exact absurd rfl (hnum v)
  | identifier name => exact absurd rfl (hname name)
  | _ => rfl

/-- The first error of the first pass is its answer (30_encoding.md R97). -/
theorem parseFrom_cons_of_error {m : ParseMode} {a : Assembly} {t : Token} {rest : List Token} {e : Error}
    (h : parseToken m a t rest = .error e) : parseFrom m a (t :: rest) = .error e := by
  simp only [parseFrom, h]

theorem parseFrom_argument_of_error {op : Opcode} {k : ArgKind} {ks : List ArgKind} {args : List Arg} {a : Assembly}
    {t : Token} {rest : List Token} {e : Error} (h : parseArg k t = .error e) :
    parseFrom (.argument op k ks args) a (t :: rest) = .error e :=
  parseFrom_cons_of_error (by simp only [parseToken, h])

/-- Settles O45: the register of a name, and the two ways to have none. -/
theorem registerArgumentsAreChecked : Obligations.RegisterArgumentsAreChecked := by
  refine ⟨rfl, parseArg_reg_registerName, fun r sp hzero hstatus => ?writable, fun r sp h => ⟨sp, ?readOnly⟩,
    fun k name sp hk h => ⟨sp, parseArg_of_parseReg_error hk (parseReg_of_not_mem sp h)⟩,
    fun k t hk h => ⟨t.span, parseArg_of_parseReg_error hk (parseReg_of_not_identifier h)⟩,
    fun r => ?encoding, fun _ _ _ _ _ _ _ _ => parseFrom_argument_of_error⟩
  case writable => exact parseArg_writereg_of_writable sp (Reg.writable_iff.2 ⟨hzero, hstatus⟩)
  case readOnly =>
    apply parseArg_writereg_of_not_writable
    obtain rfl | rfl := h <;> rfl
  case encoding => exact (emitWord_one .jmp r).trans (packImm_zero _ _).symm

/-- Settles O46: the arms of the immediate argument, and the word and the reference of a label. -/
theorem immediateArgumentsAreChecked : Obligations.ImmediateArgumentsAreChecked := by
  refine ⟨fun _ sp => parseArg_num_of_le sp, emitWord_imm_reg .ist, fun _ sp h => ⟨sp, parseArg_num_of_gt sp h⟩,
    fun _ _ => rfl, fun a t rd => ⟨?word, rfl⟩, fun t hnum hname => ⟨t.span, parseArg_num_of_missing hnum hname⟩,
    fun _ _ _ _ _ _ _ => parseFrom_argument_of_error⟩
  case word => exact congrArg (a.words ++ [·]) (emitWord_label_reg .ist t rd)

end Sys2Proof.Asm
end

section
/-! Mnemonics (30_encoding.md R88). -/

namespace Sys2Proof.Asm

/-- The 26 letters whose capitals `upper` answers. -/
def lowercaseLetters : List Char :=
  ['a', 'b', 'c', 'd', 'e', 'f', 'g', 'h', 'i', 'j', 'k', 'l', 'm', 'n', 'o', 'p', 'q', 'r', 's', 't', 'u', 'v', 'w',
    'x', 'y', 'z']

theorem lowercaseLetters_eq_map : lowercaseLetters = (List.range' 97 26).map Char.ofNat := by decide

theorem upper_of_not_mem {c : Char} (h : c ∉ lowercaseLetters) : upper c = c := by
  refine if_neg fun hc => h ?_
  simp only [Bool.and_eq_true, decide_eq_true_eq] at hc
  rw [lowercaseLetters_eq_map, ← Char.ofNat_toNat c]
  exact List.mem_map_of_mem (List.mem_range'_1.2 (by omega))

/-- No two opcodes have one mnemonic, so the first match in the table is the only one. -/
theorem opcodeNamed_eq_some_iff {op : Opcode} {name : List Char} :
    opcodeNamed name = some op ↔ name.map upper = mnemonic op := by
  constructor
  · intro h
    have hmatch := List.find?_some h
    exact (of_decide_eq_true hmatch).symm
  · intro h
    rw [opcodeNamed, h]
    cases op <;> rfl

theorem opcodeNamed_eq_none {name : List Char} (h : ∀ op, name.map upper ≠ mnemonic op) : opcodeNamed name = none :=
  Option.eq_none_iff_forall_ne_some.2 fun op hop => h op (opcodeNamed_eq_some_iff.1 hop)

section Named
variable {op : Opcode} {name : List Char} (sp : Span) (a : Assembly) (h : name.map upper = mnemonic op)
include h

theorem parseMnemonic_of_no_args (hargs : formatArgs op.format = []) :
    parseMnemonic a ⟨.identifier name, sp⟩ = .ok (.statement, a.emit op []) := by
  simp only [parseMnemonic, opcodeNamed_eq_some_iff.2 h, hargs]

theorem parseMnemonic_of_args {k : ArgKind} {ks : List ArgKind} (hargs : formatArgs op.format = k :: ks) :
    parseMnemonic a ⟨.identifier name, sp⟩ = .ok (.argument op k ks [], a) := by
  simp only [parseMnemonic, opcodeNamed_eq_some_iff.2 h, hargs]

end Named

theorem parseMnemonic_of_unknown {name : List Char} (sp : Span) (a : Assembly)
    (h : ∀ op, name.map upper ≠ mnemonic op) :
    parseMnemonic a ⟨.identifier name, sp⟩ = .error ⟨.unknownMnemonic, sp⟩ := by
  simp only [parseMnemonic, opcodeNamed_eq_none h]

theorem parseMnemonic_of_not_identifier {t : Token} (a : Assembly) (h : ∀ name, t.kind ≠ .identifier name) :
    parseMnemonic a t = .error ⟨.missingInstruction, t.span⟩ := by
  obtain ⟨kind, sp⟩ := t
  cases kind with
  | identifier name => exact absurd rfl (h name)
  | _ => rfl

/-- Settles O47: the table of mnemonics, the capitals, the match and what follows it. -/
theorem mnemonicsMatchWhateverTheirCase : Obligations.MnemonicsMatchWhateverTheirCase := by
  refine ⟨by decide, by decide, fun _ => upper_of_not_mem, fun _ _ => opcodeNamed_eq_some_iff,
    fun op name sp a h => ?named,
    fun name sp a h => ⟨sp, parseMnemonic_of_unknown sp a h⟩,
    fun t a h => ⟨t.span, parseMnemonic_of_not_identifier a h⟩⟩
  case named => exact ⟨parseMnemonic_of_no_args sp a h, fun _ _ => parseMnemonic_of_args sp a h⟩

end Sys2Proof.Asm
end

section
/-! Words the assembler may emit (30_encoding.md R78, R91, R93): canonical words of well-formed instructions, told by
their format alone. -/

namespace Sys2Proof

/-- The destination field of a word whose opcode has a format (30_encoding.md R72). -/
def Format.destField (f : Format) (w : Word) : Option Reg :=
  match f with
  | .n => none
  | .rrw => some (field3 w)
  | .rw => some (field2 w)
  | .rr => none
  | .r => none
  | .wi => some (field1 w)

theorem dest_decode (w : Word) : (decode w).dest = (opcodeOf w).format.destField w := by
  rw [decode]
  cases opcodeOf w <;> rfl

theorem Instr.wellFormed_iff {i : Instr} : i.wellFormed = true ↔ ∀ rd, i.dest = some rd → rd.writable = true := by
  rw [Instr.wellFormed]
  cases i.dest <;> simp

/-- A word the assembler may emit. -/
def CanonicalWord (w : Word) : Prop := (decode w).wellFormed = true ∧ encode (decode w) = w

theorem canonicalWord_of_format {w : Word} {op : Opcode} (hop : opcodeOf w = op)
    (hdest : ∀ rd, op.format.destField w = some rd → rd.writable = true) (hbits : w &&& op.format.usedBits = w) :
    CanonicalWord w := by
  subst hop
  exact ⟨Instr.wellFormed_iff.2 fun rd h => hdest rd (dest_decode w ▸ h), (encode_decode w).trans hbits⟩

section
variable {op : Opcode} (a b c : Reg) (f1 f2 f3 : BitVec 4)

theorem canonicalWord_packFields_n (h : op.format = .n) : CanonicalWord (packFields op 0#4 0#4 0#4) := by
  apply canonicalWord_of_format (opcodeOf_packFields _ _ _ _)
  · rw [h]; exact nofun
  · rw [h, packFields_and_usedBits_n]

theorem canonicalWord_packFields_r (h : op.format = .r) : CanonicalWord (packFields op f1 0#4 0#4) := by
  apply canonicalWord_of_format (opcodeOf_packFields _ _ _ _)
  · rw [h]; exact nofun
  · rw [h, packFields_and_usedBits_r]

theorem canonicalWord_packFields_rr (h : op.format = .rr) : CanonicalWord (packFields op f1 f2 0#4) := by
  apply canonicalWord_of_format (opcodeOf_packFields _ _ _ _)
  · rw [h]; exact nofun
  · rw [h, packFields_and_usedBits_rr]

theorem canonicalWord_packFields_rw (h : op.format = .rw) (hb : b.writable = true) :
    CanonicalWord (packFields op f1 (bits4 b) 0#4) := by
  apply canonicalWord_of_format (opcodeOf_packFields _ _ _ _)
  · rw [h, Format.destField, field2_packFields]
    rintro rd ⟨⟩
    exact hb
  · rw [h]
    exact packFields_and_usedBits_rr _ _ _ _

theorem canonicalWord_packFields_rrw (h : op.format = .rrw) (hc : c.writable = true) :
    CanonicalWord (packFields op f1 f2 (bits4 c)) := by
  apply canonicalWord_of_format (opcodeOf_packFields _ _ _ _)
  · rw [h, Format.destField, field3_packFields]
    rintro rd ⟨⟩
    exact hc
  · rw [h, and_usedBits_rrw]

theorem canonicalWord_packImm (imm : Byte) (h : op.format = .wi) (ha : a.writable = true) :
    CanonicalWord (packImm op (bits4 a) imm) := by
  apply canonicalWord_of_format (opcodeOf_packImm _ _ _)
  · rw [h, Format.destField, field1_packImm]
    rintro rd ⟨⟩
    exact ha
  · rw [h]
    exact and_usedBits_rrw _

end

/-- Format WI uses every bit, so an immediate can be replaced (30_encoding.md R94). -/
theorem Asm.canonicalWord_patchWord {w : Word} (index : Nat) (hf : (opcodeOf w).format = .wi) (h : CanonicalWord w) :
    CanonicalWord (Asm.patchWord index w) := by
  have hdest : (decode w).dest = some (field1 w) := by rw [dest_decode, hf, Format.destField]
  rw [Asm.patchWord_eq_packImm]
  exact canonicalWord_packImm _ _ hf (Instr.wellFormed_iff.1 h.1 _ hdest)

theorem Asm.opcodeOf_patchWord (index : Nat) (w : Word) : opcodeOf (Asm.patchWord index w) = opcodeOf w := by
  rw [Asm.patchWord_eq_packImm, opcodeOf_packImm]

end Sys2Proof
end

section
/-! What the first pass emits: arguments of the kinds of their opcode's format make a canonical word, and only format WI
has a label reference to resolve. -/

namespace Sys2Proof.Asm

/-- The arguments each kind accepts (30_encoding.md R91, R92). -/
def Arg.OfKind : ArgKind → Arg → Prop
  | .reg, x => ∃ r, x = .reg r
  | .writereg, x => ∃ r, r.writable = true ∧ x = .reg r
  | .num, x => (∃ v, x = .imm v) ∨ ∃ t, x = .label t

theorem parseArg_ofKind {k : ArgKind} {t : Token} {arg : Arg} (h : parseArg k t = .ok arg) : Arg.OfKind k arg := by
  cases k with
  | reg =>
    simp only [parseArg] at h
    split at h <;> cases h
    exact ⟨_, rfl⟩
  | writereg =>
    simp only [parseArg] at h
    split at h
    · split at h
      · next hw => cases h; exact ⟨_, hw, rfl⟩
      · exact nomatch h
    · exact nomatch h
  | num =>
    simp only [parseArg] at h
    split at h
    · split at h
      · cases h; exact .inl ⟨_, rfl⟩
      · exact nomatch h
    · cases h; exact .inr ⟨t, rfl⟩
    · exact nomatch h
    · exact nomatch h

/-- The arguments of a statement, all parsed. -/
abbrev ArgsOf (op : Opcode) (args : List Arg) : Prop := List.Forall₂ Arg.OfKind (formatArgs op.format) args

/-- Format N (30_encoding.md R72). -/
theorem emitWord_nil (op : Opcode) : emitWord op [] = packFields op 0#4 0#4 0#4 := by
  apply BitVec.eq_of_toNat_eq
  rw [emitWord, placeArgs, toNat_opcodeBits, toNat_packFields]
  simp

theorem ArgsOf.of_eq {op : Opcode} {kinds : List ArgKind} {args : List Arg} (hkinds : formatArgs op.format = kinds)
    (h : List.Forall₂ Arg.OfKind kinds args) : ArgsOf op args := by rwa [ArgsOf, hkinds]

theorem canonicalWord_emitWord {op : Opcode} {args : List Arg} (h : ArgsOf op args) :
    CanonicalWord (emitWord op args) := by
  unfold ArgsOf at h
  cases hf : op.format <;> rw [hf] at h
  case n =>
    obtain _ | _ := h
    rw [emitWord_nil]
    exact canonicalWord_packFields_n hf
  case rrw =>
    obtain _ | ⟨⟨a, rfl⟩, _ | ⟨⟨b, rfl⟩, _ | ⟨⟨c, hc, rfl⟩, _ | _⟩⟩⟩ := h
    rw [emitWord_rrw]
    exact canonicalWord_packFields_rrw _ _ _ hf hc
  case rw =>
    obtain _ | ⟨⟨a, rfl⟩, _ | ⟨⟨b, hb, rfl⟩, _ | _⟩⟩ := h
    rw [emitWord_two]
    exact canonicalWord_packFields_rw _ _ hf hb
  case rr =>
    obtain _ | ⟨⟨a, rfl⟩, _ | ⟨⟨b, rfl⟩, _ | _⟩⟩ := h
    rw [emitWord_two]
    exact canonicalWord_packFields_rr _ _ hf
  case r =>
    obtain _ | ⟨⟨a, rfl⟩, _ | _⟩ := h
    rw [emitWord_one]
    exact canonicalWord_packFields_r _ hf
  case wi =>
    obtain _ | ⟨⟨v, rfl⟩ | ⟨t, rfl⟩, _ | ⟨⟨a, ha, rfl⟩, _ | _⟩⟩ := h
    · rw [emitWord_imm_reg]
      exact canonicalWord_packImm _ _ hf ha
    · rw [emitWord_label_reg]
      exact canonicalWord_packImm _ _ hf ha

/-- A reference to resolve is the index of the statement's word, and one of its arguments is an immediate. -/
theorem labelRefs_of_mem {index : Nat} {kinds : List ArgKind} {args : List Arg} {p : Nat × Token}
    (h : List.Forall₂ Arg.OfKind kinds args) (hp : p ∈ labelRefs index args) : p.1 = index ∧ .num ∈ kinds := by
  induction h with
  | nil => exact nomatch hp
  | @cons k arg kinds args hk _ ih =>
    cases arg with
    | label t =>
      obtain rfl | hp := List.mem_cons.1 hp
      · cases k with
        | num => exact ⟨rfl, List.mem_cons_self⟩
        | reg => obtain ⟨r, hr⟩ := hk; exact nomatch hr
        | writereg => obtain ⟨r, -, hr⟩ := hk; exact nomatch hr
      · exact (ih hp).imp_right (List.mem_cons_of_mem k)
    | _ => exact (ih hp).imp_right (List.mem_cons_of_mem k)

/-- Format WI alone has an immediate (30_encoding.md R89). -/
theorem format_of_num_mem {f : Format} (h : .num ∈ formatArgs f) : f = .wi := by
  revert h
  cases f <;> decide

/-- A word with a label reference. -/
theorem format_opcodeOf_emitWord {op : Opcode} {args : List Arg} (h : ArgsOf op args)
    (hnum : .num ∈ formatArgs op.format) : (opcodeOf (emitWord op args)).format = .wi := by
  have hf := format_of_num_mem hnum
  unfold ArgsOf at h
  rw [hf] at h
  obtain _ | ⟨⟨v, rfl⟩ | ⟨t, rfl⟩, _ | ⟨⟨a, -, rfl⟩, _ | _⟩⟩ := h
  · rw [emitWord_imm_reg, opcodeOf_packImm, hf]
  · rw [emitWord_label_reg, opcodeOf_packImm, hf]

/-- Every word found so far is canonical, and every reference to resolve is to a word with an immediate field. -/
structure Resolvable (words : List Word) (patches : List (Nat × Token)) : Prop where
  canonical : ∀ w ∈ words, CanonicalWord w
  immediate : ∀ p ∈ patches, ∃ w, words[p.1]? = some w ∧ (opcodeOf w).format = .wi

theorem emit_resolvable {a : Assembly} {op : Opcode} {args : List Arg} (ha : Resolvable a.words a.patches)
    (h : ArgsOf op args) : Resolvable (a.emit op args).words (a.emit op args).patches where
  canonical w hw := by
    obtain hw | hw := List.mem_append.1 hw
    · exact ha.canonical w hw
    · rw [List.mem_singleton.1 hw]
      exact canonicalWord_emitWord h
  immediate p hp := by
    obtain hp | hp := List.mem_append.1 hp
    · obtain ⟨w, hw, hf⟩ := ha.immediate p hp
      exact ⟨w, (List.getElem?_append_left (List.getElem?_eq_some_iff.1 hw).1).trans hw, hf⟩
    · obtain ⟨hindex, hnum⟩ := labelRefs_of_mem h hp
      exact ⟨_, hindex ▸ List.getElem?_concat_length, format_opcodeOf_emitWord h hnum⟩

theorem Resolvable.tail {words : List Word} {p : Nat × Token} {patches : List (Nat × Token)}
    (h : Resolvable words (p :: patches)) : Resolvable words patches where
  canonical := h.canonical
  immediate q hq := h.immediate q (List.mem_cons_of_mem p hq)

/-- Resolving one reference leaves the others resolvable: the word it patches keeps its opcode. -/
theorem Resolvable.patch {words : List Word} {p : Nat × Token} {patches : List (Nat × Token)} (index : Nat)
    (h : Resolvable words (p :: patches)) : Resolvable (words.modify p.1 (patchWord index)) patches where
  canonical w hw := by
    obtain ⟨w', hw', hf⟩ := h.immediate p List.mem_cons_self
    have hmodify : words.modify p.1 (patchWord index) = words.set p.1 (patchWord index w') := by
      rw [List.modify_eq_set_getElem?, hw']
      rfl
    rw [hmodify] at hw
    obtain hw | rfl := List.mem_or_eq_of_mem_set hw
    · exact h.canonical w hw
    · exact canonicalWord_patchWord index hf (h.canonical w' (List.mem_of_getElem? hw'))
  immediate q hq := by
    obtain ⟨w, hw, hf⟩ := h.immediate q (List.mem_cons_of_mem p hq)
    refine ⟨if p.1 = q.1 then patchWord index w else w, by rw [List.getElem?_modify, hw]; rfl, ?_⟩
    split
    · rw [opcodeOf_patchWord, hf]
    · exact hf

theorem resolve_canonical {labels : List (List Char × Nat)} {patches : List (Nat × Token)} {words words' : List Word}
    (hr : Resolvable words patches) (h : resolve labels patches words = .ok words') :
    ∀ w ∈ words', CanonicalWord w := by
  induction patches generalizing words with
  | nil =>
    cases h
    exact hr.canonical
  | cons p rest ih =>
    obtain ⟨i, t⟩ := p
    simp only [resolve] at h
    split at h
    · split at h
      · next index _ => exact ih (hr.patch index) h
      · exact nomatch h
    all_goals exact ih hr.tail h

/-- The arguments parsed so far are of the first kinds of their opcode's format, and the others are still to come. -/
def ParseMode.Sound : ParseMode → Prop
  | .argument op k ks args => ∃ done, formatArgs op.format = done ++ k :: ks ∧ List.Forall₂ Arg.OfKind done args
  | .statement => True
  | .colon => True
  | .mnemonic => True

/-- What the first pass keeps. -/
def ParseSound (m : ParseMode) (a : Assembly) : Prop := m.Sound ∧ Resolvable a.words a.patches

theorem parseMnemonic_sound {a : Assembly} {t : Token} {m : ParseMode} {a' : Assembly}
    (ha : Resolvable a.words a.patches) (h : parseMnemonic a t = .ok (m, a')) : ParseSound m a' := by
  simp only [parseMnemonic] at h
  split at h
  · split at h
    · exact nomatch h
    next op _ =>
      split at h
      · next hargs =>
        cases h
        exact ⟨trivial, emit_resolvable ha (.of_eq hargs .nil)⟩
      · next k ks hargs =>
        cases h
        exact ⟨⟨[], hargs, .nil⟩, ha⟩
  all_goals exact nomatch h

theorem parseToken_sound {m m' : ParseMode} {a a' : Assembly} {t : Token} {rest : List Token} (hs : ParseSound m a)
    (h : parseToken m a t rest = .ok (m', a')) : ParseSound m' a' := by
  obtain ⟨hm, ha⟩ := hs
  cases m with
  | statement =>
    simp only [parseToken] at h
    split at h
    · cases h; exact ⟨trivial, ha⟩
    · split at h
      · split at h
        · exact nomatch h
        · cases h; exact ⟨trivial, ha⟩
      · exact parseMnemonic_sound ha h
    · exact nomatch h
    · exact nomatch h
  | colon => cases h; exact ⟨trivial, ha⟩
  | mnemonic => exact parseMnemonic_sound ha h
  | argument op k ks args =>
    obtain ⟨done, hkinds, hdone⟩ := hm
    simp only [parseToken] at h
    split at h
    · exact nomatch h
    next arg harg =>
      have hargs : List.Forall₂ Arg.OfKind (done ++ [k]) (args ++ [arg]) :=
        List.rel_append hdone (.cons (parseArg_ofKind harg) .nil)
      split at h
      · cases h
        exact ⟨trivial, emit_resolvable ha (.of_eq hkinds hargs)⟩
      · cases h
        exact ⟨⟨done ++ [k], by rw [hkinds, List.append_assoc]; rfl, hargs⟩, ha⟩

theorem parseFrom_resolvable {tokens : List Token} {m : ParseMode} {a a' : Assembly} (hs : ParseSound m a)
    (h : parseFrom m a tokens = .ok a') : Resolvable a'.words a'.patches := by
  induction tokens generalizing m a with
  | nil =>
    cases h
    exact hs.2
  | cons t rest ih =>
    simp only [parseFrom] at h
    split at h
    · exact nomatch h
    · next htoken => exact ih (parseToken_sound hs htoken) h

/-- What the assembler did with a text it accepts. -/
theorem assemble_ok {source : List Char} {words : List Word} (h : assemble source = .ok words) :
    ∃ tokens a, lex source = .ok tokens ∧ parse tokens = .ok a ∧ resolve a.labels a.patches a.words = .ok words ∧
      words.length ≤ 255 := by
  simp only [assemble] at h
  split at h
  · exact nomatch h
  next tokens hlex =>
    split at h
    · exact nomatch h
    next a hparse =>
      split at h
      · exact nomatch h
      next words' hresolve =>
        simp only [checkCapacity] at h
        split at h
        · exact nomatch h
        · cases h
          exact ⟨tokens, a, hlex, hparse, hresolve, by omega⟩

theorem Resolvable.empty : Resolvable Assembly.empty.words Assembly.empty.patches := ⟨nofun, nofun⟩

/-- Settles O50: the first pass keeps every word canonical and every reference resolvable (`parseFrom_resolvable`), the
second keeps the words canonical (`resolve_canonical`), and the capacity check is the limit of construction. -/
theorem assembledProgramsAreCanonical : Obligations.AssembledProgramsAreCanonical := by
  intro source words h
  obtain ⟨tokens, a, -, hparse, hresolve, hlen⟩ := assemble_ok h
  have hr : Resolvable a.words a.patches :=
    parseFrom_resolvable (m := .statement) ⟨trivial, .empty⟩ hparse
  exact ⟨⟨_, Machine.construct_of_le hlen⟩, resolve_canonical hr hresolve⟩

end Sys2Proof.Asm
end

section
/-! The lexer on spelled tokens (30_encoding.md R81, R83, R84): a number or an identifier, a blank, and the rest of the
text. -/

namespace Sys2Proof.Asm

theorem isDigit_eq (c : Char) : isDigit c = c.isDigit := by
  rw [Bool.eq_iff_iff]
  simp only [isDigit, Char.isDigit, Bool.and_eq_true, decide_eq_true_eq, ge_iff_le, UInt32.le_iff_toNat_le]
  rfl

theorem isBlank_cases {c : Char} (h : isBlank c = true) : c = ' ' ∨ c = '\t' ∨ c = '\n' := by
  simpa only [isBlank, Bool.or_eq_true, decide_eq_true_eq, or_assoc] using h

/-- A blank is part of no number and no identifier. -/
theorem isWordChar_of_isBlank {c : Char} (h : isBlank c = true) : (isLetter c || isDigit c) = false := by
  obtain rfl | rfl | rfl := isBlank_cases h <;> decide

theorem isBlank_of_isWordChar {c : Char} (h : (isLetter c || isDigit c) = true) : isBlank c = false :=
  Bool.eq_false_iff.2 fun hb => nomatch h.symm.trans (isWordChar_of_isBlank hb)

theorem lexIdle_of_isBlank (off : Nat) {c : Char} (h : isBlank c = true) : lexIdle off c = .ok ([], .idle) := if_pos h

theorem lexIdle_of_isDigit (off : Nat) {c : Char} (h : isDigit c = true) :
    lexIdle off c = .ok ([], .number off (digitValue c)) := by
  rw [lexIdle, isBlank_of_isWordChar (by rw [h, Bool.or_true]), h]
  rfl

theorem lexIdle_of_isLetter (off : Nat) {c : Char} (h : isLetter c = true) :
    lexIdle off c = .ok ([], .word off [c]) := by
  have hd : isDigit c = false := by
    simp only [isLetter, isDigit, Bool.or_eq_true, Bool.and_eq_true, decide_eq_true_eq, Bool.and_eq_false_iff,
      decide_eq_false_iff_not] at h ⊢
    omega
  rw [lexIdle, isBlank_of_isWordChar (by rw [h, Bool.true_or]), hd, h]
  rfl

/-- From a mode and wherever it stands, a text lexes to tokens of these kinds. -/
def LexesTo (m : LexMode) (text : List Char) (kinds : List TokenKind) : Prop :=
  ∀ off, ∃ tokens, lexFrom m off text = .ok tokens ∧ tokens.map Token.kind = kinds

theorem lexesTo_nil : LexesTo .idle [] [.endOfFile] := fun _ => ⟨_, rfl, rfl⟩

theorem LexesTo.cons {m : LexMode} {c : Char} {text : List Char} {kinds kinds' : List TokenKind}
    (h : ∀ off, ∃ ts m', lexChar m off c = .ok (ts, m') ∧ ts.map Token.kind = kinds ∧ LexesTo m' text kinds') :
    LexesTo m (c :: text) (kinds ++ kinds') := by
  intro off
  obtain ⟨ts, m', hc, hts, hrest⟩ := h off
  obtain ⟨us, hus, hkinds⟩ := hrest (off + c.utf8Size)
  refine ⟨ts ++ us, ?_, by rw [List.map_append, hts, hkinds]⟩
  simp only [lexFrom, hc, hus]

/-- The rest of an identifier. -/
theorem LexesTo.word {start : Nat} {name cs rest : List Char} {c : Char} {kinds : List TokenKind}
    (hcs : ∀ d ∈ cs, (isLetter d || isDigit d) = true) (hc : isBlank c = true) (h : LexesTo .idle rest kinds) :
    LexesTo (.word start name) (cs ++ c :: rest) (.identifier (name ++ cs) :: kinds) := by
  intro off
  rw [lexFrom_word start off name cs rest c hcs (isWordChar_of_isBlank hc) hc]
  obtain ⟨us, hus, hkinds⟩ := h (off + byteLength cs + c.utf8Size)
  exact ⟨_, by rw [hus]; rfl, congrArg _ hkinds⟩

/-- The rest of a digit run. -/
theorem LexesTo.number {start value : Nat} {cs rest : List Char} {c : Char} {kinds : List TokenKind}
    (hcs : ∀ d ∈ cs, isDigit d = true) (hc : isBlank c = true) (h : LexesTo .idle rest kinds) :
    LexesTo (.number start value) (cs ++ c :: rest) (.number (Nat.ofDigitChars 10 cs value) :: kinds) := by
  induction cs generalizing value with
  | nil =>
    have hd : isDigit c = false := (Bool.or_eq_false_iff.1 (isWordChar_of_isBlank hc)).2
    refine LexesTo.cons (kinds := [.number value]) fun off => ⟨[⟨.number value, ⟨start, off⟩⟩], .idle, ?_, rfl, h⟩
    simp only [lexChar, hd, lexIdle_of_isBlank off hc, withTokens, Bool.false_eq_true, if_false, List.append_nil]
  | cons d ds ih =>
    obtain ⟨hd, hds⟩ := List.forall_mem_cons.1 hcs
    refine LexesTo.cons (kinds := []) fun off => ⟨[], .number start (value * 10 + digitValue d), ?_, rfl, ?_⟩
    · simp only [lexChar, hd, if_true]
    · rw [Nat.ofDigitChars_cons, Nat.mul_comm]
      exact ih hds

/-- How a token of a kind is spelled. -/
def TokenKind.text : TokenKind → List Char
  | .number v => Nat.toDigits 10 v
  | .identifier name => name
  | .colon => [':']
  | .endOfFile => []

/-- A number, or an identifier that begins with a letter and goes on with letters and digits (30_encoding.md R83,
R84). -/
def TokenKind.isSpelled : TokenKind → Bool
  | .number _ => true
  | .identifier [] => false
  | .identifier (c :: cs) => isLetter c && cs.all fun d => isLetter d || isDigit d
  | .colon => false
  | .endOfFile => false

theorem LexesTo.token {k : TokenKind} {c : Char} {rest : List Char} {kinds : List TokenKind} (hk : k.isSpelled = true)
    (hc : isBlank c = true) (h : LexesTo .idle rest kinds) : LexesTo .idle (k.text ++ c :: rest) (k :: kinds) := by
  cases k with
  | colon => exact nomatch hk
  | endOfFile => exact nomatch hk
  | identifier name =>
    cases name with
    | nil => exact nomatch hk
    | cons d ds =>
      simp only [TokenKind.isSpelled, Bool.and_eq_true, List.all_eq_true] at hk
      obtain ⟨hd, hds⟩ := hk
      exact LexesTo.cons (kinds := []) fun off => ⟨[], _, lexIdle_of_isLetter off hd, rfl, LexesTo.word hds hc h⟩
  | number v =>
    have hdigits : ∀ d ∈ Nat.toDigits 10 v, isDigit d = true := fun d hd =>
      (isDigit_eq d).trans (Nat.isDigit_of_mem_toDigits (by decide) (by decide) hd)
    have hvalue : Nat.ofDigitChars 10 (Nat.toDigits 10 v) 0 = v := Nat.ofDigitChars_ten_toDigits
    rw [TokenKind.text]
    cases htext : Nat.toDigits 10 v with
    | nil => exact absurd htext Nat.toDigits_ne_nil
    | cons d ds =>
      rw [htext] at hdigits hvalue
      obtain ⟨hd, hds⟩ := List.forall_mem_cons.1 hdigits
      refine LexesTo.cons (kinds := []) fun off => ⟨[], _, lexIdle_of_isDigit off hd, rfl, ?_⟩
      have hnumber := LexesTo.number (start := off) (value := digitValue d) hds hc h
      rw [Nat.ofDigitChars_cons, Nat.mul_zero, Nat.zero_add] at hvalue
      rwa [← hvalue]

/-- A line of tokens with a space between. -/
theorem LexesTo.line {k : TokenKind} {ks : List TokenKind} {rest : List Char} {kinds : List TokenKind}
    (hk : k.isSpelled = true) (hks : ∀ k ∈ ks, k.isSpelled = true) (h : LexesTo .idle rest kinds) :
    LexesTo .idle (k.text ++ (ks.flatMap fun k => ' ' :: k.text) ++ '\n' :: rest) (k :: (ks ++ kinds)) := by
  induction ks generalizing k with
  | nil =>
    rw [List.flatMap_nil, List.append_nil]
    exact LexesTo.token hk rfl h
  | cons k' ks ih =>
    obtain ⟨hk', hks'⟩ := List.forall_mem_cons.1 hks
    rw [List.flatMap_cons, List.append_assoc, List.append_assoc, List.cons_append, ← List.append_assoc]
    exact LexesTo.token hk rfl (ih hk' hks')

end Sys2Proof.Asm
end

section
/-! The first pass on spelled statements (30_encoding.md R86 to R93): the kinds of the tokens decide what is emitted,
their spans do not matter. -/

namespace Sys2Proof.Asm

/-- The token a register or an immediate is written as. -/
def Arg.tokenKind : Arg → TokenKind
  | .reg r => .identifier registerNames[r]
  | .imm v => .number v.toNat
  | .label t => t.kind

/-- An argument is read back from its token, wherever it stands. -/
def Spells (k : ArgKind) (arg : Arg) : Prop := ∀ sp, parseArg k ⟨arg.tokenKind, sp⟩ = .ok arg

theorem spells_reg (r : Reg) : Spells .reg (.reg r) := parseArg_reg_registerName r

theorem spells_writereg {r : Reg} (h : r.writable = true) : Spells .writereg (.reg r) :=
  fun sp => parseArg_writereg_of_writable sp h

theorem spells_imm (v : Byte) : Spells .num (.imm v) := by
  intro sp
  have h := parseArg_num_of_le sp (Nat.le_of_lt_succ v.isLt)
  rwa [BitVec.ofNat_toNat, BitVec.setWidth_eq] at h

/-- No argument is written as a colon. -/
theorem Spells.ne_colon {k : ArgKind} {arg : Arg} (h : Spells k arg) : arg.tokenKind ≠ .colon := by
  intro hcolon
  have h := h ⟨0, 0⟩
  rw [hcolon] at h
  cases k <;> exact nomatch h

/-- In a mode and with the words found so far, tokens of these kinds pass the first pass. -/
def ParsesTo (m : ParseMode) (a : Assembly) (kinds : List TokenKind) (a' : Assembly) : Prop :=
  ∀ tokens : List Token, tokens.map Token.kind = kinds → parseFrom m a tokens = .ok a'

theorem ParsesTo.cons {m : ParseMode} {a a' : Assembly} {k : TokenKind} {kinds : List TokenKind}
    (h : ∀ sp rest, rest.map Token.kind = kinds →
      ∃ m₁ a₁, parseToken m a ⟨k, sp⟩ rest = .ok (m₁, a₁) ∧ ParsesTo m₁ a₁ kinds a') :
    ParsesTo m a (k :: kinds) a' := by
  intro tokens htokens
  obtain ⟨⟨_, sp⟩, rest, rfl, rfl, hrest⟩ := List.map_eq_cons_iff.1 htokens
  obtain ⟨m₁, a₁, htoken, hparse⟩ := h sp rest hrest
  simp only [parseFrom, htoken]
  exact hparse rest hrest

theorem parsesTo_nil (a : Assembly) : ParsesTo .statement a [] a := by
  intro tokens htokens
  rw [List.map_eq_nil_iff.1 htokens]
  rfl

theorem ParsesTo.arguments {op : Opcode} {k : ArgKind} {ks : List ArgKind} {args done : List Arg} {a a' : Assembly}
    {kinds : List TokenKind} (hargs : List.Forall₂ Spells (k :: ks) args)
    (h : ParsesTo .statement (a.emit op (done ++ args)) kinds a') :
    ParsesTo (.argument op k ks done) a (args.map Arg.tokenKind ++ kinds) a' := by
  induction ks generalizing k args done with
  | nil =>
    obtain _ | ⟨harg, _ | _⟩ := hargs
    exact ParsesTo.cons fun sp rest _ => ⟨_, _, by simp only [parseToken, harg sp], h⟩
  | cons k' ks ih =>
    cases hargs with
    | @cons _ arg _ args harg hargs =>
    have hrest : ParsesTo (.argument op k' ks (done ++ [arg])) a (args.map Arg.tokenKind ++ kinds) a' :=
      ih hargs (by rwa [List.append_assoc, List.singleton_append])
    exact ParsesTo.cons fun sp rest _ => ⟨_, _, by simp only [parseToken, harg sp], hrest⟩

theorem beforeColon_eq_false {rest : List Token} (h : (rest.map Token.kind).head? ≠ some .colon) :
    beforeColon rest = false := by
  cases rest with
  | nil => rfl
  | cons t ts => exact decide_eq_false fun ht => h (congrArg some ht)

theorem map_upper_mnemonic (op : Opcode) : (mnemonic op).map upper = mnemonic op := by
  cases op <;> decide

theorem head?_args_ne_colon {kinds' : List ArgKind} {args : List Arg} {kinds : List TokenKind}
    (hargs : List.Forall₂ Spells kinds' args) (hnext : kinds.head? ≠ some .colon) :
    (args.map Arg.tokenKind ++ kinds).head? ≠ some .colon := by
  cases hargs with
  | nil => exact hnext
  | cons harg _ => exact fun hcolon => harg.ne_colon (Option.some.inj hcolon)

/-- A whole statement: with no colon after it, its mnemonic is no label. -/
theorem ParsesTo.statement {op : Opcode} {args : List Arg} {a a' : Assembly} {kinds : List TokenKind}
    (hargs : List.Forall₂ Spells (formatArgs op.format) args) (hnext : kinds.head? ≠ some .colon)
    (h : ParsesTo .statement (a.emit op args) kinds a') :
    ParsesTo .statement a (.identifier (mnemonic op) :: (args.map Arg.tokenKind ++ kinds)) a' := by
  refine ParsesTo.cons fun sp rest hrest => ?_
  have hcolon : beforeColon rest = false := by
    apply beforeColon_eq_false
    rw [hrest]
    exact head?_args_ne_colon hargs hnext
  have htoken : parseToken .statement a ⟨.identifier (mnemonic op), sp⟩ rest =
      parseMnemonic a ⟨.identifier (mnemonic op), sp⟩ := by
    simp only [parseToken, hcolon, Bool.false_eq_true, if_false]
  rw [htoken]
  cases hformat : formatArgs op.format with rw [hformat] at hargs
  | nil =>
    cases hargs
    exact ⟨_, _, parseMnemonic_of_no_args sp a (map_upper_mnemonic op) hformat, h⟩
  | cons k ks =>
    exact ⟨_, _, parseMnemonic_of_args sp a (map_upper_mnemonic op) hformat, ParsesTo.arguments hargs h⟩

end Sys2Proof.Asm
end

section
/-! The source text of a program (30_encoding.md R89): its statements are lines of spelled tokens, which the first pass
reads back as the instructions' arguments. -/

namespace Sys2Proof.Asm

/-- The operands of an instruction as arguments, in the order of the source text (30_encoding.md R89). -/
def sourceArgs : Instr → List Arg
  | .nop => []
  | .halt => []
  | .add rs1 rs2 rd => [.reg rs1, .reg rs2, .reg rd]
  | .sub rs1 rs2 rd => [.reg rs1, .reg rs2, .reg rd]
  | .and rs1 rs2 rd => [.reg rs1, .reg rs2, .reg rd]
  | .or rs1 rs2 rd => [.reg rs1, .reg rs2, .reg rd]
  | .xor rs1 rs2 rd => [.reg rs1, .reg rs2, .reg rd]
  | .not rs1 rd => [.reg rs1, .reg rd]
  | .set rs1 rd => [.reg rs1, .reg rd]
  | .ist rd imm => [.imm imm, .reg rd]
  | .jmp rs1 => [.reg rs1]
  | .jip rs1 rs2 => [.reg rs1, .reg rs2]
  | .lod rs1 rd => [.reg rs1, .reg rd]
  | .sto rs1 rs2 => [.reg rs1, .reg rs2]
  | .shl rs1 rs2 rd => [.reg rs1, .reg rs2, .reg rd]
  | .shr rs1 rs2 rd => [.reg rs1, .reg rs2, .reg rd]

theorem operandTexts_eq (i : Instr) : operandTexts i = ((sourceArgs i).map Arg.tokenKind).map TokenKind.text := by
  cases i <;> rfl

theorem labelRefs_sourceArgs (index : Nat) (i : Instr) : labelRefs index (sourceArgs i) = [] := by
  cases i <;> rfl

theorem emitWord_sourceArgs (i : Instr) : emitWord i.opcode (sourceArgs i) = encode i := by
  cases i
  case nop | halt => exact emitWord_nil _
  case jmp => exact emitWord_one _ _
  case not | set | jip | lod | sto => exact emitWord_two _ _ _
  case ist => exact emitWord_imm_reg _ _ _
  all_goals exact emitWord_rrw _ _ _ _

theorem spells_sourceArgs {i : Instr} (h : i.wellFormed = true) :
    List.Forall₂ Spells (formatArgs i.opcode.format) (sourceArgs i) := by
  cases i
  case nop | halt => exact .nil
  case jmp => exact .cons (spells_reg _) .nil
  case jip | sto => exact .cons (spells_reg _) (.cons (spells_reg _) .nil)
  case not | set | lod => exact .cons (spells_reg _) (.cons (spells_writereg h) .nil)
  case ist => exact .cons (spells_imm _) (.cons (spells_writereg h) .nil)
  all_goals exact .cons (spells_reg _) (.cons (spells_reg _) (.cons (spells_writereg h) .nil))

theorem isSpelled_registerName (r : Reg) : TokenKind.isSpelled (.identifier registerNames[r]) = true := by
  revert r
  decide

theorem isSpelled_mnemonic (op : Opcode) : TokenKind.isSpelled (.identifier (mnemonic op)) = true := by
  cases op <;> decide

/-- Every argument but a label reference is spelled as its token. -/
theorem isSpelled_of_labelRefs_nil {index : Nat} {args : List Arg} (h : labelRefs index args = []) :
    ∀ k ∈ args.map Arg.tokenKind, k.isSpelled = true := by
  induction args with
  | nil => exact nofun
  | cons arg args ih =>
    cases arg with
    | reg r => exact List.forall_mem_cons.2 ⟨isSpelled_registerName r, ih h⟩
    | imm v => exact List.forall_mem_cons.2 ⟨rfl, ih h⟩
    | label t => exact nomatch h

/-- The tokens of an instruction's statement. -/
def statementKinds (i : Instr) : List TokenKind :=
  .identifier (mnemonic i.opcode) :: (sourceArgs i).map Arg.tokenKind

/-- The tokens of a program's source text. -/
def programKinds (is : List Instr) : List TokenKind := is.flatMap statementKinds ++ [.endOfFile]

theorem programKinds_cons (i : Instr) (is : List Instr) :
    programKinds (i :: is) =
      .identifier (mnemonic i.opcode) :: ((sourceArgs i).map Arg.tokenKind ++ programKinds is) := by
  simp only [programKinds, List.flatMap_cons, statementKinds, List.append_assoc, List.cons_append]

/-- No program begins with a colon. -/
theorem head?_programKinds_ne_colon (is : List Instr) : (programKinds is).head? ≠ some .colon := by
  cases is <;> exact nofun

theorem programText_cons (i : Instr) (is : List Instr) :
    programText (i :: is) =
      (TokenKind.identifier (mnemonic i.opcode)).text ++
        (((sourceArgs i).map Arg.tokenKind).flatMap fun k => ' ' :: k.text) ++ '\n' :: programText is := by
  simp only [programText, List.flatMap_cons, statementText, operandTexts_eq, List.flatMap_map, TokenKind.text,
    List.append_assoc, List.cons_append, List.nil_append]

theorem lexesTo_programText (is : List Instr) : LexesTo .idle (programText is) (programKinds is) := by
  induction is with
  | nil => exact lexesTo_nil
  | cons i is ih =>
    rw [programText_cons, programKinds_cons]
    exact LexesTo.line (isSpelled_mnemonic i.opcode) (isSpelled_of_labelRefs_nil (labelRefs_sourceArgs 0 i)) ih

theorem emit_sourceArgs (a : Assembly) (i : Instr) :
    a.emit i.opcode (sourceArgs i) = { a with words := a.words ++ [encode i] } := by
  rw [Assembly.emit, emitWord_sourceArgs, labelRefs_sourceArgs, List.append_nil]

theorem parsesTo_programKinds {is : List Instr} (h : ∀ i ∈ is, i.wellFormed = true) (a : Assembly) :
    ParsesTo .statement a (programKinds is) { a with words := a.words ++ is.map encode } := by
  induction is generalizing a with
  | nil =>
    rw [List.map_nil, List.append_nil]
    exact ParsesTo.cons fun sp rest _ => ⟨.statement, a, rfl, parsesTo_nil a⟩
  | cons i is ih =>
    obtain ⟨hi, his⟩ := List.forall_mem_cons.1 h
    rw [programKinds_cons]
    apply ParsesTo.statement (spells_sourceArgs hi) (head?_programKinds_ne_colon is)
    rw [emit_sourceArgs]
    have hrest := ih his { a with words := a.words ++ [encode i] }
    rwa [List.append_assoc] at hrest

/-- Of the source text of a program only the capacity check can fail. -/
theorem assemble_programText {is : List Instr} (h : ∀ i ∈ is, i.wellFormed = true) :
    assemble (programText is) = checkCapacity (byteLength (programText is)) (is.map encode) := by
  obtain ⟨tokens, hlex, hkinds⟩ := lexesTo_programText is 0
  exact assemble_eq_checkCapacity hlex (parsesTo_programKinds h Assembly.empty tokens hkinds) rfl

theorem map_decode_map_encode (is : List Instr) : (is.map encode).map decode = is := by
  rw [List.map_map]
  exact List.map_id'' decode_encode is

/-- Settles O51, by induction on the program in `lexesTo_programText` and `parsesTo_programKinds`. -/
theorem assemblerAndDecoderAgree : Obligations.AssemblerAndDecoderAgree := by
  intro is h
  have hlength : (is.map encode).length = is.length := List.length_map encode
  rw [assemble_programText h]
  refine ⟨fun hlen => ⟨is.map encode, checkCapacity_of_le _ (hlength ▸ hlen), rfl, map_decode_map_encode is⟩,
    fun hlen => ?long⟩
  case long =>
    rw [checkCapacity_of_ge _ (hlength ▸ hlen), hlength]
    exact ⟨_, rfl⟩

end Sys2Proof.Asm
end

section
/-! The lines a span is on (30_encoding.md R98): the lines before it end before it, those after it begin after it. -/

namespace Sys2Proof.Asm

theorem byteLength_newline : byteLength ['\n'] = 1 := rfl

theorem byteLength_pos {t : List Char} (h : t ≠ []) : 0 < byteLength t := by
  cases t with
  | nil => exact absurd rfl h
  | cons c cs => exact Nat.add_pos_left c.utf8Size_pos _

/-- A text of whole lines, each with its newline. -/
def joinLines (ls : List (List Char)) : List Char := ls.flatMap (· ++ ['\n'])

theorem joinLines_cons (l : List Char) (ls : List (List Char)) : joinLines (l :: ls) = l ++ '\n' :: joinLines ls := by
  rw [joinLines, List.flatMap_cons, List.append_assoc]
  rfl

/-- Whole lines, numbered from `n`, the first at offset `off`. -/
def numberedLines (n off : Nat) : List (List Char) → List Line
  | [] => []
  | l :: ls => ⟨n, l, ⟨off, off + byteLength l⟩⟩ :: numberedLines (n + 1) (off + byteLength l + 1) ls

theorem byteLength_joinLines_cons (l : List Char) (ls : List (List Char)) :
    byteLength (joinLines (l :: ls)) = byteLength l + 1 + byteLength (joinLines ls) := by
  have hnewline : byteLength ('\n' :: joinLines ls) = 1 + byteLength (joinLines ls) := rfl
  rw [joinLines_cons, byteLength_append, hnewline, Nat.add_assoc]

theorem linesFrom_joinLines {ls : List (List Char)} (h : ∀ l ∈ ls, '\n' ∉ l) (n off : Nat) (cs : List Char) :
    linesFrom n off off [] (joinLines ls ++ cs) =
      numberedLines n off ls ++
        linesFrom (n + ls.length) (off + byteLength (joinLines ls)) (off + byteLength (joinLines ls)) [] cs := by
  induction ls generalizing n off with
  | nil => rfl
  | cons l ls ih =>
    obtain ⟨hl, hls⟩ := List.forall_mem_cons.1 h
    rw [byteLength_joinLines_cons, joinLines_cons, List.append_assoc, List.cons_append, linesFrom_line _ _ _ _ _ _ hl,
      ih hls, List.length_cons]
    simp only [numberedLines, List.nil_append, List.cons_append, Nat.add_assoc, Nat.add_comm 1]

/-- A numbered line lies within the text of its lines. -/
theorem span_of_mem_numberedLines {ls : List (List Char)} {n off : Nat} {l : Line} (h : l ∈ numberedLines n off ls) :
    off ≤ l.span.start ∧ l.span.start ≤ l.span.stop ∧ l.span.stop < off + byteLength (joinLines ls) := by
  induction ls generalizing n off with
  | nil => exact nomatch h
  | cons t ls ih =>
    rw [byteLength_joinLines_cons]
    obtain rfl | h := List.mem_cons.1 h
    · dsimp only
      omega
    · obtain ⟨hstart, hle, hstop⟩ := ih h
      omega

/-- A line and the lines after it, which begin after its newline. -/
theorem linesFrom_cons_after {t : List Char} (ht : '\n' ∉ t) (n off : Nat) (after : List (List Char)) :
    ∃ later, linesFrom n off off [] (t ++ after.flatMap ('\n' :: ·)) = ⟨n, t, ⟨off, off + byteLength t⟩⟩ :: later ∧
      ∀ l ∈ later, off + byteLength t < l.span.start := by
  cases after with
  | nil => exact ⟨[], by rw [List.flatMap_nil, List.append_nil, linesFrom_last _ _ _ _ _ ht]; rfl, nofun⟩
  | cons a after =>
    rw [List.flatMap_cons, List.cons_append, linesFrom_line _ _ _ _ _ _ ht]
    exact ⟨_, rfl, fun l hl => linesFrom_start_le (Nat.le_refl _) hl⟩

section
variable {n start stop : Nat} {t : List Char} {l : Line}

/-- A line that ends before a span. -/
theorem Line.not_overlaps_of_stop_lt (h : l.span.stop < start) : l.overlaps ⟨start, stop⟩ = false := by
  simp only [Line.overlaps]
  split <;> simp <;> omega

/-- A line that begins after a span. -/
theorem Line.not_overlaps_of_lt_start (h : stop < l.span.start) : l.overlaps ⟨start, stop⟩ = false := by
  simp only [Line.overlaps]
  split <;> simp <;> omega

/-- A line a span begins on. -/
theorem Line.overlaps_of_le {a b : Nat} (hsp : start ≤ stop) (ha : a ≤ start) (hb : start ≤ b) :
    Line.overlaps ⟨n, t, ⟨a, b⟩⟩ ⟨start, stop⟩ = true := by
  simp only [Line.overlaps]
  split <;> simp <;> omega

/-- A line that begins in a span. -/
theorem Line.overlaps_of_lt {a b : Nat} (hab : a ≤ b) (hstart : start ≤ a) (hstop : a < stop) :
    Line.overlaps ⟨n, t, ⟨a, b⟩⟩ ⟨start, stop⟩ = true := by
  simp only [Line.overlaps]
  split <;> simp <;> omega

end

section
variable {start stop off : Nat}

/-- The lines before a span are not shown. -/
theorem filter_numberedLines_before {n : Nat} {ls : List (List Char)} (h : off + byteLength (joinLines ls) ≤ start) :
    (numberedLines n off ls).filter (·.overlaps ⟨start, stop⟩) = [] := by
  refine List.filter_eq_nil_iff.2 fun l hl => ?_
  obtain ⟨-, -, hstop⟩ := span_of_mem_numberedLines hl
  rw [Line.not_overlaps_of_stop_lt (hstop.trans_le h)]
  exact Bool.false_ne_true

/-- The lines in a span are all shown. -/
theorem filter_numberedLines_within {n : Nat} {ls : List (List Char)} (hstart : start ≤ off)
    (hstop : off + byteLength (joinLines ls) ≤ stop) :
    (numberedLines n off ls).filter (·.overlaps ⟨start, stop⟩) = numberedLines n off ls := by
  refine List.filter_eq_self.2 fun l hl => ?_
  obtain ⟨hoff, hle, hlt⟩ := span_of_mem_numberedLines hl
  exact Line.overlaps_of_lt hle (hstart.trans hoff) (hle.trans_lt (hlt.trans_le hstop))

/-- The lines after a span are not shown. -/
theorem filter_after {later : List Line} (h : ∀ l ∈ later, stop < l.span.start) :
    later.filter (·.overlaps ⟨start, stop⟩) = [] := by
  refine List.filter_eq_nil_iff.2 fun l hl => ?_
  rw [Line.not_overlaps_of_lt_start (h l hl)]
  exact Bool.false_ne_true

/-- Of a text, the lines before the span are not shown, whatever comes after them. -/
theorem shownLines_joinLines {before : List (List Char)} (h : ∀ l ∈ before, '\n' ∉ l) (cs : List Char)
    (hoff : byteLength (joinLines before) = off) (hstart : off ≤ start) :
    shownLines (joinLines before ++ cs) ⟨start, stop⟩ =
      (linesFrom (before.length + 1) off off [] cs).filter (·.overlaps ⟨start, stop⟩) := by
  rw [shownLines, sourceLines, linesFrom_joinLines h, List.filter_append, filter_numberedLines_before (by omega),
    List.nil_append, Nat.zero_add, Nat.add_comm 1, hoff]

/-- The last line of a span is shown, and none after it. -/
theorem filter_linesFrom_last {n : Nat} {t : List Char} (ht : '\n' ∉ t) (after : List (List Char))
    (hstop : stop ≤ off + byteLength t)
    (h : Line.overlaps ⟨n, t, ⟨off, off + byteLength t⟩⟩ ⟨start, stop⟩ = true) :
    (linesFrom n off off [] (t ++ after.flatMap ('\n' :: ·))).filter (·.overlaps ⟨start, stop⟩) =
      [⟨n, t, ⟨off, off + byteLength t⟩⟩] := by
  obtain ⟨later, hlines, hlater⟩ := linesFrom_cons_after ht n off after
  rw [hlines, List.filter_cons, if_pos h, filter_after fun l hl => hstop.trans_lt (hlater l hl)]

end

end Sys2Proof.Asm
end

section
/-! The underline of a line (30_encoding.md R98), by where the span begins and ends, and the location. -/

namespace Sys2Proof.Asm

section
variable {start stop off : Nat}

/-- A line that is all in the span. -/
theorem underlineFrom_all {t : List Char} (hstart : start ≤ off) (hstop : off + byteLength t ≤ stop) :
    underlineFrom ⟨start, stop⟩ off t = List.replicate t.length '^' := by
  have h := underlineFrom_within ⟨start, stop⟩ off t [] hstart hstop
  rwa [List.append_nil, underlineFrom, List.append_nil] at h

/-- A line the span begins on. -/
theorem underlineFrom_end {pre mid : List Char} (hstart : off + byteLength pre = start)
    (hstop : start + byteLength mid ≤ stop) :
    underlineFrom ⟨start, stop⟩ off (pre ++ mid) =
      List.replicate pre.length ' ' ++ List.replicate mid.length '^' := by
  have hsp : start ≤ stop := by omega
  rw [underlineFrom_before _ off pre mid hstart.le hsp, hstart, underlineFrom_all (Nat.le_refl start) hstop]

/-- A line the span ends on. -/
theorem underlineFrom_start {mid post : List Char} (hstart : start ≤ off) (hstop : off + byteLength mid = stop) :
    underlineFrom ⟨start, stop⟩ off (mid ++ post) = List.replicate mid.length '^' := by
  rw [underlineFrom_within _ off mid post hstart hstop.le, underlineFrom_after _ _ post hstop.ge, List.append_nil]

/-- A line with the whole span on it. -/
theorem underlineFrom_parts {pre mid post : List Char} (hstart : off + byteLength pre = start)
    (hstop : start + byteLength mid = stop) :
    underlineFrom ⟨start, stop⟩ off (pre ++ mid ++ post) =
      List.replicate pre.length ' ' ++ List.replicate mid.length '^' := by
  have hsp : start ≤ stop := by omega
  rw [List.append_assoc, underlineFrom_before _ off pre _ hstart.le hsp, hstart,
    underlineFrom_start (Nat.le_refl start) hstop]

/-- The lines in the span, each with its underline. -/
theorem flatMap_shown_numberedLines {n : Nat} {ls : List (List Char)} (hstart : start ≤ off)
    (hstop : off + byteLength (joinLines ls) ≤ stop) :
    (numberedLines n off ls).flatMap (Line.shown ⟨start, stop⟩) =
      ls.flatMap fun l => [l, List.replicate l.length '^'] := by
  induction ls generalizing n off with
  | nil => rfl
  | cons t ls ih =>
    rw [byteLength_joinLines_cons] at hstop
    rw [numberedLines, List.flatMap_cons, List.flatMap_cons, ih (by omega) (by omega), Line.shown,
      underlineFrom_all hstart (by dsimp only; omega)]

end

/-- The location of several lines names the first and the last. -/
theorem locationText_many (l l' : Line) (ls : List Line) :
    locationText (l :: (ls ++ [l'])) =
      ['A', 't', ' ', 'l', 'i', 'n', 'e', 's', ' '] ++ Nat.toDigits 10 l.number ++ ['-'] ++
        Nat.toDigits 10 l'.number := by
  cases ls with
  | nil => rfl
  | cons l'' ls => rw [List.cons_append, locationText, ← List.cons_append, List.getLastD_concat]

end Sys2Proof.Asm
end

section
/-! The two layouts of an error (30_encoding.md R98, log entry 19). -/

namespace Sys2Proof.Asm

/-- A span on one line. -/
theorem render_one_line {before : List (List Char)} {pre mid post : List Char} (after : List (List Char))
    (message : List Char) (hbefore : ∀ l ∈ before, '\n' ∉ l) (hline : '\n' ∉ pre ++ mid ++ post) :
    render (joinLines before ++ pre ++ mid ++ post ++ after.flatMap ('\n' :: ·))
        ⟨byteLength (joinLines before ++ pre), byteLength (joinLines before ++ pre ++ mid)⟩ message =
      ['\n'].intercalate [message, pre ++ mid ++ post, List.replicate pre.length ' ' ++ List.replicate mid.length '^',
        ['A', 't', ' ', 'l', 'i', 'n', 'e', ' '] ++ Nat.toDigits 10 (before.length + 1)] := by
  have htext : joinLines before ++ pre ++ mid ++ post ++ after.flatMap ('\n' :: ·) =
      joinLines before ++ (pre ++ mid ++ post ++ after.flatMap ('\n' :: ·)) := by simp only [List.append_assoc]
  have hlength : byteLength (pre ++ mid ++ post) = byteLength pre + byteLength mid + byteLength post := by
    rw [byteLength_append, byteLength_append]
  simp only [render, byteLength_append _ pre, byteLength_append _ mid, htext]
  rw [shownLines_joinLines hbefore _ rfl (by omega),
    filter_linesFrom_last hline after (by omega) (Line.overlaps_of_le (by omega) (by omega) (by omega)),
    List.flatMap_singleton, Line.shown, underlineFrom_parts rfl rfl]
  rfl

/-! A span from the text `mid` at the end of one line, over the lines `middle`, to the text `mid'` at the start of
another. -/
section ManyLines
variable {before middle : List (List Char)} {pre mid mid' post : List Char} (after : List (List Char))
  (hbefore : ∀ l ∈ before, '\n' ∉ l) (hfirst : '\n' ∉ pre ++ mid) (hmiddle : ∀ l ∈ middle, '\n' ∉ l)
  (hlast : '\n' ∉ mid' ++ post) (hne : mid' ≠ [])
include hbefore hfirst hmiddle hlast hne

/-- The lines shown, where the first begins at `off`, the second at `off'` and the last at `off''`. -/
theorem shownLines_many_lines {off off' off'' : Nat} (hoff : byteLength (joinLines before) = off)
    (hoff' : off + byteLength (pre ++ mid) + 1 = off') (hoff'' : off' + byteLength (joinLines middle) = off'') :
    shownLines (joinLines before ++
        (pre ++ mid ++ '\n' :: (joinLines middle ++ (mid' ++ post ++ after.flatMap ('\n' :: ·)))))
        ⟨off + byteLength pre, off'' + byteLength mid'⟩ =
      ⟨before.length + 1, pre ++ mid, ⟨off, off + byteLength (pre ++ mid)⟩⟩ ::
        (numberedLines (before.length + 2) off' middle ++
          [⟨before.length + middle.length + 2, mid' ++ post, ⟨off'', off'' + byteLength (mid' ++ post)⟩⟩]) := by
  have hpos : 0 < byteLength mid' := byteLength_pos hne
  have hprelength := byteLength_append pre mid
  have hpostlength := byteLength_append mid' post
  have hnumber : before.length + 1 + 1 + middle.length = before.length + middle.length + 2 := by omega
  rw [shownLines_joinLines hbefore _ hoff (Nat.le_add_right _ _), linesFrom_line _ _ _ _ _ _ hfirst, hoff',
    linesFrom_joinLines hmiddle, hoff'', hnumber, List.filter_cons,
    if_pos (Line.overlaps_of_le (by omega) (by omega) (by omega)), List.filter_append,
    filter_numberedLines_within (by omega) (by omega),
    filter_linesFrom_last hlast after (by omega) (Line.overlaps_of_lt (by omega) (by omega) (by omega)),
    List.nil_append]

/-- A span over several lines. -/
theorem render_many_lines (message : List Char) :
    render (joinLines before ++ pre ++ mid ++ ['\n'] ++ joinLines middle ++ mid' ++ post ++
        after.flatMap ('\n' :: ·))
        ⟨byteLength (joinLines before ++ pre),
          byteLength (joinLines before ++ pre ++ mid ++ ['\n'] ++ joinLines middle ++ mid')⟩ message =
      ['\n'].intercalate
        ([message, pre ++ mid, List.replicate pre.length ' ' ++ List.replicate mid.length '^'] ++
          middle.flatMap (fun l => [l, List.replicate l.length '^']) ++
          [mid' ++ post, List.replicate mid'.length '^',
            ['A', 't', ' ', 'l', 'i', 'n', 'e', 's', ' '] ++ Nat.toDigits 10 (before.length + 1) ++ ['-'] ++
              Nat.toDigits 10 (before.length + middle.length + 2)]) := by
  have htext : joinLines before ++ pre ++ mid ++ ['\n'] ++ joinLines middle ++ mid' ++ post ++
      after.flatMap ('\n' :: ·) = joinLines before ++
        (pre ++ mid ++ '\n' :: (joinLines middle ++ (mid' ++ post ++ after.flatMap ('\n' :: ·)))) := by
    simp only [List.append_assoc, List.cons_append, List.nil_append]
  have hprelength := byteLength_append pre mid
  have hstop : byteLength (joinLines before ++ pre ++ mid ++ ['\n'] ++ joinLines middle ++ mid') =
      byteLength (joinLines before) + byteLength (pre ++ mid) + 1 + byteLength (joinLines middle) +
        byteLength mid' := by
    simp only [byteLength_append, byteLength_newline]
    omega
  rw [render, htext, hstop, byteLength_append,
    shownLines_many_lines after hbefore hfirst hmiddle hlast hne rfl rfl rfl]
  simp only [List.flatMap_cons, List.flatMap_append, List.flatMap_nil, locationText_many, Line.shown]
  rw [underlineFrom_end rfl (by omega), flatMap_shown_numberedLines (by omega) (by omega),
    underlineFrom_start (by omega) rfl]
  simp only [List.append_assoc, List.cons_append, List.nil_append]

end ManyLines

/-- Settles O52: the two layouts, and the renderer's two arms. -/
theorem errorsAreRenderedOnTheirLines : Obligations.ErrorsAreRenderedOnTheirLines := by
  refine ⟨fun before after pre mid post message hbefore hline => ?oneLine,
    fun before middle after pre mid mid' post message hbefore hfirst hmiddle hlast hne => ?manyLines,
    fun source e h => ⟨?report, rfl, rfl⟩, rfl⟩
  case oneLine => exact render_one_line after message hbefore hline
  case manyLines => exact render_many_lines after hbefore hfirst hmiddle hlast hne message
  case report => rw [assembleOrReport, h]; rfl

end Sys2Proof.Asm
end
